-- ==== Sys2Proof/Word.lean ====
section
/-! DEFINITION. The plain types every layer shares: the operand word (R55), the character (R13) and the cell byte (R52). -/

namespace Sys2Proof

/-- An operand word, a double-precision value as 64 bits (R55). -/
abbrev Word := BitVec 64

/-- A character of the two-element alphabet (R13): `true` is `'1'`, `false` is `'0'`, so that `chr(b)` is `b`. -/
abbrev Chr := Bool

/-- The 8-bit code of a cell of `OUT` as port `rd_char` shows it (R52). -/
abbrev Byte := BitVec 8

end Sys2Proof
end

