-- ==== Sys2Proof/Config.lean ====
section
/-! DEFINITION. What this hardware fixes (R8, R9) and the free values of what the spec leaves open. -/

namespace Sys2Proof.Config

/-- `BIAS` (R8). -/
abbrev bias : Int := 1023

/-- `BEXP_CLAMP_MIN` (R8). -/
abbrev bexpClampMin : Int := 0

/-- `SUBNORMAL_SCALE_EXP` (R8): the subnormal fraction is `value / 2^(-1022)`. -/
abbrev subnormalScaleExp : Int := -1022

/-- The exponent of the unit of `MAG_N`: `MAG = MAG_N × 2^-1074` (R23, R58). -/
abbrev magUnitExp : Int := -1074

/-- `E_START` (R8). -/
abbrev eStart : BitVec 12 := 0

/-- `E_SEARCH_MIN` (R9, R108). -/
abbrev eSearchMin : Int := -1023

/-- `E_SEARCH_MAX` (R9, R108). -/
abbrev eSearchMax : Int := 1024

/-- `CHAR0` (R9, R52). PRESUMED (entry 13): the code is general knowledge, unsafe for claims about `rd_char`. -/
abbrev char0 : Byte := 0x30

/-- `CHAR1` (R9, R52). PRESUMED (entry 13), as `char0`. -/
abbrev char1 : Byte := 0x31

/-- FREE VALUE (entry 4, safe): the content of cell `k` of `MSTR` after `MSEL` has set it to no value (R120, R34). -/
opaque freeMstr (draw k : Nat) : Chr

/-- FREE VALUE (entry 5, safe): what a host read of `OUT[i]` shows while `OUT` holds no value (R47). -/
opaque freeRead (draw i : Nat) : Byte

/-- FREE VALUE (entry 7, safe): `BEXP` where `E + 1023` does not fit its 11 bits, which no run reaches (R112). -/
opaque freeBexp (draw : Nat) : BitVec 11

/-- FREE VALUE (entry 7, safe): `REM` where the fraction is no multiple of 2^-52 in [0, 1), which no run reaches (R121). -/
opaque freeRem (draw : Nat) : BitVec 52

/-- FREE VALUE (entry 7, safe): `K` where `K + 1` does not fit its 6 bits, which no run reaches (R112). -/
opaque freeK (draw : Nat) : BitVec 6

end Sys2Proof.Config
end

