-- ==== Sys2Proof/Syntax.lean ====
section
/-! DEFINITION. The instructions: one constructor for each of the twelve rows of the opcode table (R60, R61, R68), and the two code sets they use. -/

namespace Sys2Proof

/-- The ten phases (R61). Codes 10 to 15 are reserved and left out of the type (R64, D24; entry 16). -/
inductive Phase where
  | idle | sign | exps | bias | expe | msel | mext | asm | done | fault
  deriving DecidableEq, Repr

/-- The two fault causes that are ever produced (R62). Codes 2 and 3 are reserved (R64; entry 16). -/
inductive Cause where
  | none | nanOperand
  deriving DecidableEq, Repr

/-- The two instruction formats: `CMD`, 65 bits (R60), and `PHASE`, 4 bits (R61). -/
inductive Format where
  | cmd | phase
  deriving DecidableEq, Repr

/-- The complete opcode map (R68): two commands and ten phase codes. -/
inductive Instr where
  /-- `NOP`, `start = 0`; the operand bits are carried and ignored (R60, R76). -/
  | nop (ignored : Word)
  /-- `ENCODE`, `start = 1`, with its operand word (R60, R75). -/
  | encode (operand : Word)
  /-- `IDLE`, code 0 (R131). -/
  | idle
  /-- `SIGN`, code 1 (R100). -/
  | sign
  /-- `EXPS`, code 2 (R106). -/
  | exps
  /-- `BIAS`, code 3 (R109). -/
  | bias
  /-- `EXPE`, code 4 (R111). -/
  | expe
  /-- `MSEL`, code 5 (R120). -/
  | msel
  /-- `MEXT`, code 6 (R122). -/
  | mext
  /-- `ASM`, code 7 (R130). -/
  | asm
  /-- `DONE`, code 8 (R132). -/
  | done
  /-- `FAULT`, code 9 (R133). -/
  | fault
  deriving DecidableEq, Repr

/-- The format of an instruction's row in the opcode table. -/
def Instr.format : Instr → Format
  | .nop _ | .encode _ => .cmd
  | .idle | .sign | .exps | .bias | .expe | .msel | .mext | .asm | .done | .fault => .phase

end Sys2Proof
end

