-- ==== Sys2Proof/WellFormed.lean ====
section
/-! DEFINITION. Which raw words are instructions. A term of `Instr` is well formed by its type (every operand word is
accepted, R64 a); the checks are on raw words: the width of the format (R60, R61) and the assigned phase codes (R64 b). -/

namespace Sys2Proof

/-- A raw word: the format it is read in, and its bits as one number, bit 0 the least significant. -/
structure RawWord where
  format : Format
  bits   : Nat
  deriving DecidableEq, Repr

/-- The width of a format in bits (R60, R61, R64 d). -/
def Format.width : Format → Nat
  | .cmd => 65
  | .phase => 4

/-- The bits fit the format's width. -/
def RawWord.fits (r : RawWord) : Bool := decide (r.bits < 2 ^ r.format.width)

/-- The code is assigned: both commands are, and the phase codes 0 to 9 (R64). -/
def RawWord.assigned (r : RawWord) : Bool :=
  match r.format with
  | .cmd => true
  | .phase => decide (r.bits ≤ 9)

/-- A raw word is an instruction. -/
def RawWord.wf (r : RawWord) : Bool := r.fits && r.assigned

/-- Every term of `Instr` is well formed: no field can hold a value the encoding lacks. -/
def Instr.wf : Instr → Bool
  | .nop _ | .encode _ => true
  | .idle | .sign | .exps | .bias | .expe | .msel | .mext | .asm | .done | .fault => true

end Sys2Proof
end

