-- ==== Sys2Proof/Decode.lean ====
section
/-! DEFINITION. The decoder (R68: "command = start; micro-operation = PHASE"), total on any bytes and refusing by name, and
the encoder written from the same tables (R60, R61). The layout of a word in bytes is the model's (entry 9). -/

namespace Sys2Proof

/-- Why a word is no instruction. -/
inductive DecodeError where
  /-- A reserved phase code, 10 to 15 (R64 b). -/
  | reservedPhase (code : Nat)
  /-- Bits set above the format's width (R64 d: a command is always 65 bits, a phase code always 4). -/
  | tooWide
  /-- Neither one byte (a phase code) nor nine (a command). -/
  | wrongLength (n : Nat)
  deriving DecidableEq, Repr

/-- The phase codes (R61). -/
def Phase.code : Phase → BitVec 4
  | .idle => 0
  | .sign => 1
  | .exps => 2
  | .bias => 3
  | .expe => 4
  | .msel => 5
  | .mext => 6
  | .asm => 7
  | .done => 8
  | .fault => 9

/-- The phase a code names; the reserved codes name none (R64 b). -/
def phaseOfCode (c : BitVec 4) : Option Phase :=
  match c.toNat with
  | 0 => some .idle
  | 1 => some .sign
  | 2 => some .exps
  | 3 => some .bias
  | 4 => some .expe
  | 5 => some .msel
  | 6 => some .mext
  | 7 => some .asm
  | 8 => some .done
  | 9 => some .fault
  | _ => none

/-- The micro-operation or hold a phase selects (R61). -/
def Phase.instr : Phase → Instr
  | .idle => .idle
  | .sign => .sign
  | .exps => .exps
  | .bias => .bias
  | .expe => .expe
  | .msel => .msel
  | .mext => .mext
  | .asm => .asm
  | .done => .done
  | .fault => .fault

/-- The command decoder: bit 64 is `start`, bits 63:0 the operand (R60). Total: the command space has no unassigned code. -/
def decodeCommand (c : BitVec 65) : Instr :=
  if c.getLsbD 64 then .encode (c.setWidth 64) else .nop (c.setWidth 64)

/-- The phase decoder (R61, R64 b). -/
def decodePhase (c : BitVec 4) : Except DecodeError Instr :=
  match phaseOfCode c with
  | some p => .ok p.instr
  | none => .error (.reservedPhase c.toNat)

/-- The decoder of raw words. -/
def decode (r : RawWord) : Except DecodeError Instr :=
  if r.fits then
    match r.format with
    | .cmd => .ok (decodeCommand (BitVec.ofNat 65 r.bits))
    | .phase => decodePhase (BitVec.ofNat 4 r.bits)
  else .error .tooWide

/-- The number that bytes spell, the first byte least significant (entry 9). -/
def natOfBytes : List Byte → Nat
  | [] => 0
  | b :: bs => b.toNat + 256 * natOfBytes bs

/-- The `n` lowest bytes of a number, the least significant first (entry 9). -/
def bytesOfNat : Nat → Nat → List Byte
  | 0, _ => []
  | n + 1, w => BitVec.ofNat 8 w :: bytesOfNat n (w / 256)

/-- The decoder on bytes: one byte is a phase code, nine are a command (entry 9). -/
def decodeBytes (bs : List Byte) : Except DecodeError Instr :=
  if bs.length = 1 then decode ⟨.phase, natOfBytes bs⟩
  else if bs.length = 9 then decode ⟨.cmd, natOfBytes bs⟩
  else .error (.wrongLength bs.length)

/-- The encoder: the code table of R60 and R61. -/
def encode : Instr → RawWord
  | .nop w => ⟨.cmd, w.toNat⟩
  | .encode w => ⟨.cmd, 2 ^ 64 + w.toNat⟩
  | .idle => ⟨.phase, 0⟩
  | .sign => ⟨.phase, 1⟩
  | .exps => ⟨.phase, 2⟩
  | .bias => ⟨.phase, 3⟩
  | .expe => ⟨.phase, 4⟩
  | .msel => ⟨.phase, 5⟩
  | .mext => ⟨.phase, 6⟩
  | .asm => ⟨.phase, 7⟩
  | .done => ⟨.phase, 8⟩
  | .fault => ⟨.phase, 9⟩

/-- How many bytes a format's word takes (entry 9). -/
def Format.nbytes : Format → Nat
  | .cmd => 9
  | .phase => 1

/-- The encoder to bytes. -/
def encodeBytes (i : Instr) : List Byte := bytesOfNat i.format.nbytes (encode i).bits

/-- The format a table word of `nbits` bits is laid out in: up to one byte a phase code, up to nine bytes a command (entry 9). -/
def tableFormat (nbits : Nat) : Option Format :=
  if nbits = 0 then none
  else if nbits ≤ 8 then some .phase
  else if nbits ≤ 72 then some .cmd
  else none

/-- The instruction the decoder reads from a table word, numbered as spec/opcode_table.json numbers it; a number with bits
above `nbits` is refused. -/
def decodeTableWord (nbits w : Nat) : Option Instr :=
  if w < 2 ^ nbits then
    match tableFormat nbits with
    | some f => (decodeBytes (bytesOfNat f.nbytes w)).toOption
    | none => none
  else none

end Sys2Proof
end

