-- ==== Sys2Proof/Machine/State.lean ====
section
/-! DEFINITION. The machine's state as plain data: everything the spec gives it (R21 to R33, R38), the reset state (R36) and
the ways a step can stop. -/

namespace Sys2Proof.Machine

/-- A register: the content its cells store, and whether it architecturally holds a value (R34). A read takes the content
and never faults; `held = false` is the spec's "holds no value" (entry 2). -/
structure Reg (α : Type) where
  val  : α
  held : Bool
  deriving DecidableEq, Repr

/-- A register just written with `v`. -/
def Reg.now {α : Type} (v : α) : Reg α := ⟨v, true⟩

/-- A register that holds no value, with the content it happens to store (R34). -/
def Reg.empty {α : Type} (v : α) : Reg α := ⟨v, false⟩

/-- The content of `MAG` (R23): infinite (`MAG_INF = 1`), or `MAG_N` units of 2^-1074 (entry 11). -/
inductive Magnitude where
  | inf
  | fin (n : BitVec 2098)
  deriving DecidableEq, Repr

/-- The output buffer: the cells of `OUT` that hold a value, as (index, character) pairs with rising indexes (entry 5). A cell
is two-valued, so it holds nothing but `'0'` and `'1'`; its byte code exists only at the port (R52, D9). -/
abbrev Memory := List (Nat × Chr)

/-- The canonical form of `OUT`: indexes strictly rising and below 64 (R40). An unlisted cell holds no value, so no listed
entry can equal what an unlisted one reads as. -/
def Memory.wf (m : Memory) : Bool :=
  decide ((m.map Prod.fst).Pairwise (· < ·)) && m.all fun c => decide (c.1 < 64)

/-- What the host drives on the input ports in one step (R38). -/
structure PortIn where
  rst     : Bool
  start   : Bool
  operand : Word
  rdIndex : BitVec 6
  deriving DecidableEq, Repr

/-- The ports of a host that presents nothing: no reset and no command (R76). -/
def PortIn.quiet : PortIn := ⟨false, false, 0, 0⟩

/-- Everything the spec gives the machine. -/
structure State where
  /-- `PHASE` (R30). -/
  phase  : Phase
  /-- `CAUSE` (R32). -/
  cause  : Cause
  /-- `OPD` (R21). -/
  opd    : Reg Word
  /-- `S` (R22). -/
  sbit   : Reg Bool
  /-- `MAG` (R23). -/
  mag    : Reg Magnitude
  /-- `E` (R24). -/
  e      : Reg (BitVec 12)
  /-- `BEXP` (R25). -/
  bexp   : Reg (BitVec 11)
  /-- `XSTR[0..10]` (R26). -/
  xstr   : Reg (Vector Chr 11)
  /-- `REM`, as `REM_R` in units of 2^-52 (R27). -/
  rem    : Reg (BitVec 52)
  /-- `MSTR[0..51]`, each cell with its own mark (R28). -/
  mstr   : Vector (Reg Chr) 52
  /-- `K` (R29). -/
  k      : Reg (BitVec 6)
  /-- `OUT[0..63]` (R33). -/
  out    : Memory
  /-- The input ports of this step and of the steps to come, one entry a step (R38, R79; entry 1). -/
  inputs : List PortIn
  /-- The model's own: how many accepted `ENCODE`s and resets there have been, the key of the free values (entry 6). -/
  draw   : Nat
  deriving DecidableEq, Repr

/-- The reasons the machine stops with a fault: none. The step function is total and nothing is stuck (R79, R82);
`NAN_OPERAND` is a next state (R144; entry 15). -/
inductive Fault where
  deriving DecidableEq, Repr

/-- The reasons a step is refused. -/
inductive Refusal where
  /-- Raised by `exec` for an instruction without a meaning; no arm raises it. Safe. -/
  | notModelled (mnemonic : String)
  /-- Raised by `step` if the phase code were reserved (R64 b, U12); the type of `PHASE` leaves those codes out, so no state
  raises it (entry 16). Safe. -/
  | reservedPhase
  deriving DecidableEq, Repr

/-- The state after reset (R36): `PHASE = IDLE`, `CAUSE = 0`, every other register and `OUT` holding no value. The contents
of the registers that hold no value are the model's (DESIGN CHOICE zero, entry 2, unsafe). -/
def State.reset : State where
  phase  := .idle
  cause  := .none
  opd    := .empty 0
  sbit   := .empty false
  mag    := .empty (.fin 0)
  e      := .empty 0
  bexp   := .empty 0
  xstr   := .empty (Vector.replicate 11 false)
  rem    := .empty 0
  mstr   := Vector.replicate 52 (.empty false)
  k      := .empty 0
  out    := []
  inputs := []
  draw   := 0

end Sys2Proof.Machine
end

