-- ==== Sys2Proof/Machine/Flags.lean ====
section
/-! DEFINITION. The three status flags, each a function of `PHASE` (R31), and the cause code (R62). The block has no arithmetic
condition codes (R31). -/

namespace Sys2Proof.Machine

/-- A hold phase (R17): the block waits for a command. -/
def holdPhase : Phase → Bool
  | .idle | .done | .fault => true
  | .sign | .exps | .bias | .expe | .msel | .mext | .asm => false

/-- Flag `BUSY` (R31). -/
def State.busy (s : State) : Bool :=
  match s.phase with
  | .sign | .exps | .bias | .expe | .msel | .mext | .asm => true
  | .idle | .done | .fault => false

/-- Flag `VALID` (R31). -/
def State.valid (s : State) : Bool := decide (s.phase = .done)

/-- Flag `FAULT` (R31). -/
def State.faulted (s : State) : Bool := decide (s.phase = .fault)

/-- The cause codes (R62). -/
def causeCode : Cause → BitVec 2
  | .none => 0
  | .nanOperand => 1

end Sys2Proof.Machine
end

