-- ==== Sys2Proof/Machine/Operands.lean ====
section
/-! DEFINITION. The operand forms and the arithmetic of the block: values and `unpack` (R12, R57), the sign predicates and
`abs` (R101, R102), the normalised fraction and the search (R105 to R108), bias and clamp (R109), `bin` (R113), the initial
fraction (R120) and the doubling (R122). All arithmetic is exact, on natural numbers and integers (R12, entry 11). -/

namespace Sys2Proof.Machine

/-- A value that is not NaN (R12): `fin s n` is `Fin(s, n × 2^-1074)` (R58), `inf s` is `Inf(s)`. -/
inductive Number where
  | fin (s : Bool) (n : BitVec 2098)
  | inf (s : Bool)
  deriving DecidableEq, Repr

/-- The value an operand word denotes (R12). -/
inductive Value where
  | num (v : Number)
  | nan
  deriving DecidableEq, Repr

/-- Field `s` of an operand word (R55). -/
def signField (w : Word) : Bool := w.getLsbD 63

/-- Field `b` of an operand word (R55). -/
def expField (w : Word) : BitVec 11 := w.extractLsb' 52 11

/-- Field `m` of an operand word (R55). -/
def mantField (w : Word) : BitVec 52 := w.extractLsb' 0 52

/-- `unpack` (R57), with the magnitude in units of 2^-1074 (R58). The class of NaN words is R59 (entry 12). -/
def unpack (w : Word) : Value :=
  let s := signField w
  let b := (expField w).toNat
  let m := (mantField w).toNat
  if b = 0 then .num (.fin s (BitVec.ofNat 2098 m))
  else if b ≤ 2046 then .num (.fin s (BitVec.ofNat 2098 ((2 ^ 52 + m) * 2 ^ (b - 1))))
  else if m = 0 then .num (.inf s)
  else .nan

/-- `v < 0` (R101): a zero of either sign is not less than zero. -/
def Number.isNegative : Number → Bool
  | .fin s n => s && decide (0 < n.toNat)
  | .inf s => s

/-- "`1 / value` evaluates to negative infinity" (R101): the reciprocal of a zero is the infinity of the zero's sign, and no
other value has an infinite reciprocal (entry 14). -/
def Number.isNegativeZero : Number → Bool
  | .fin s n => s && decide (n.toNat = 0)
  | .inf _ => false

/-- The sign bit (R100). -/
def Number.sign (v : Number) : Bool := v.isNegative || v.isNegativeZero

/-- `abs` (R102). -/
def Number.abs : Number → Magnitude
  | .fin _ n => .fin n
  | .inf _ => .inf

/-- `frac(q, e) ≥ 1`, that is `q ≥ 2^(e+1)`; true of an infinite magnitude (R105). For `e + 1075 < 0` the power is below
one unit, so any magnitude of at least one unit exceeds it. -/
def fracGeOne : Magnitude → Int → Bool
  | .inf, _ => true
  | .fin n, e => decide (2 ^ (e + 1 - Config.magUnitExp).toNat ≤ n.toNat)

/-- `frac(q, e) < 0`, that is `q < 2^e`; false of an infinite magnitude (R105). -/
def fracNeg : Magnitude → Int → Bool
  | .inf, _ => false
  | .fin n, e => decide (n.toNat < 2 ^ (e - Config.magUnitExp).toNat)

/-- One iteration of the search (R106): the next `E`, or `none` where the search exits. -/
def searchStep (m : Magnitude) (e : BitVec 12) : Option (BitVec 12) :=
  if fracGeOne m e.toInt && decide (e.toInt < Config.eSearchMax) then some (e + 1)
  else if fracNeg m e.toInt && decide (Config.eSearchMin < e.toInt) then some (e - 1)
  else none

/-- `max(0, E + 1023)` in 11 bits (R109). A sum above 2047, which no run reaches, is a free value (R112, entry 7). -/
def biasOf (e : BitVec 12) (draw : Nat) : BitVec 11 :=
  let v := max Config.bexpClampMin (e.toInt + Config.bias)
  if v < 2048 then BitVec.ofInt 11 v else Config.freeBexp draw

/-- `bin(n, w)` (R113): the low `w` base-2 digits of `n`, most significant first. -/
def bin (n w : Nat) : Vector Chr w := Vector.ofFn fun j => decide (n / 2 ^ (w - 1 - j.val) % 2 = 1)

/-- A fraction of `x` units of 2^-52 as the content of `REM` (R27). One that is not below 1, which no run reaches, is a
free value (R121, entry 7). -/
def remOf (x draw : Nat) : BitVec 52 := if x < 2 ^ 52 then BitVec.ofNat 52 x else Config.freeRem draw

/-- The initial fraction (R120): 0 for an infinite magnitude; `MAG / 2^(-1022)` in the subnormal regime `U ≤ -1023`;
`MAG / 2^U - 1` otherwise, in units of 2^-52 (R121). A `MAG / 2^U - 1` that is negative or no multiple of 2^-52, which no run
reaches, is a free value (entry 7). -/
def selectRem (m : Magnitude) (bexp : BitVec 11) (draw : Nat) : BitVec 52 :=
  let u : Int := (bexp.toNat : Int) - Config.bias
  match m with
  | .inf => 0
  | .fin n =>
    if u ≤ -1023 then remOf n.toNat draw
    else
      let d := 2 ^ (u - Config.subnormalScaleExp).toNat
      if n.toNat % d = 0 ∧ 2 ^ 52 ≤ n.toNat / d then remOf (n.toNat / d - 2 ^ 52) draw else Config.freeRem draw

/-- One doubling (R122): the emitted character and the next remainder. One is 2^52 units. -/
def double (r : BitVec 52) : Chr × BitVec 52 :=
  let t := 2 * r.toNat
  if 2 ^ 52 ≤ t then (true, BitVec.ofNat 52 (t - 2 ^ 52)) else (false, BitVec.ofNat 52 t)

/-- `K + 1` in 6 bits (R122). A sum of 64, which no run reaches, is a free value (R112, entry 7). -/
def nextK (k : BitVec 6) (draw : Nat) : BitVec 6 := if k.toNat < 63 then k + 1 else Config.freeK draw

/-- The code of a character on the port `rd_char` (R52). -/
def charCode (c : Chr) : Byte := if c then Config.char1 else Config.char0

/-- The character a cell code stands for; other codes stand for none (R52). -/
def charOfCode (b : Byte) : Option Chr :=
  if b = Config.char0 then some false else if b = Config.char1 then some true else none

end Sys2Proof.Machine
end

