-- ==== Sys2Proof/Machine/Ops.lean ====
section
/-! DEFINITION. The named operations the meanings share: the cells of `OUT` (R43, R44), accepting a command (R75), raising the
fault (R143), the reset step (R160) and reading the ports (R38). -/

namespace Sys2Proof.Machine

/-- The character in one cell of `OUT`; `none` where it holds no value. -/
def Memory.read : Memory → Nat → Option Chr
  | [], _ => none
  | (a, b) :: m, i => if a = i then some b else Memory.read m i

/-- Write one cell, keeping the indexes rising. -/
def Memory.write : Memory → Nat → Chr → Memory
  | [], i, v => [(i, v)]
  | (a, b) :: m, i, v =>
    if i < a then (i, v) :: (a, b) :: m
    else if i = a then (i, v) :: m
    else (a, b) :: Memory.write m i v

/-- `MemWrite(i, n, v)` with `n` the length of `v` (R44): cells `i, i+1, ...` get the characters of `v` in order. -/
def Memory.writeString (m : Memory) (i : Nat) : List Chr → Memory
  | [] => m
  | v :: vs => Memory.writeString (Memory.write m i v) (i + 1) vs

/-- The characters of `MSTR`, cell 0 first. -/
def State.mantissaString (s : State) : List Chr := s.mstr.toList.map Reg.val

/-- `chr(S) ++ XSTR ++ MSTR` (R130). -/
def State.resultString (s : State) : List Chr := s.sbit.val :: (s.xstr.val.toList ++ s.mantissaString)

/-- Acceptance of `ENCODE` (R75): the operand is captured, the cause cleared, `OUT` emptied, and `SIGN` is next. -/
def accept (w : Word) (s : State) : State :=
  { s with opd := .now w, cause := .none, out := [], phase := .sign, draw := s.draw + 1 }

/-- `raise Fault(c)`, the block's one exception entry (R143): `CAUSE` and `PHASE` are written and nothing else is. It has no
return operation: the ways out are `accept` and `afterReset` (R146). -/
def raiseFault (c : Cause) (s : State) : State := { s with cause := c, phase := .fault }

/-- The input ports of the present step; a host that has nothing more to present presents no command (entry 1). -/
def State.port (s : State) : PortIn := s.inputs.headD .quiet

/-- The input ports move on to the next step (entry 1). -/
def State.consume (s : State) : State := { s with inputs := s.inputs.tail }

/-- The 65-bit command on the ports, `start ++ operand` (R60). -/
def PortIn.command (p : PortIn) : BitVec 65 := (BitVec.ofBool p.start ++ p.operand : BitVec (1 + 64))

/-- A step with `rst = 1` (R160): the reset state, whatever the phase and the command; the inputs still to come stay. -/
def afterReset (s : State) : State :=
  { State.reset with inputs := s.inputs.tail, draw := s.draw + 1 }

end Sys2Proof.Machine
end

