-- ==== Sys2Proof/Machine/Assembly.lean ====
section
/-! DEFINITION. Result assembly (R130). -/

namespace Sys2Proof.Machine

/-- `ASM` (R130): all 64 cells of `OUT` are written in the step that sets `PHASE <- DONE` (R44). -/
def execAsm (s : State) : Host.Outcome State Fault Refusal :=
  .next { s with out := s.out.writeString 0 s.resultString, phase := .done }

end Sys2Proof.Machine
end

