-- ==== Sys2Proof/Machine/Command.lean ====
section
/-! DEFINITION. The two commands (R75, R76). -/

namespace Sys2Proof.Machine

/-- `NOP` (R76): nothing. The operand port is ignored. -/
def execNop (_ignored : Word) (s : State) : Host.Outcome State Fault Refusal := .next s

/-- `ENCODE` (R75): accepted when `BUSY = 0`; when `BUSY = 1` it is dropped without trace (R163). -/
def execEncode (w : Word) (s : State) : Host.Outcome State Fault Refusal :=
  .next (if s.busy then s else accept w s)

end Sys2Proof.Machine
end

