-- ==== Sys2Proof/Machine/Exponent.lean ====
section
/-! DEFINITION. The exponent normaliser (R105 to R114). -/

namespace Sys2Proof.Machine

/-- `EXPS` (R106): one iteration of the search. `PHASE` is written where the search exits and stays otherwise. -/
def execExps (s : State) : Host.Outcome State Fault Refusal :=
  .next <|
    match searchStep s.mag.val s.e.val with
    | some e => { s with e := .now e }
    | none => { s with phase := .bias }

/-- `BIAS` (R109). -/
def execBias (s : State) : Host.Outcome State Fault Refusal :=
  .next { s with bexp := .now (biasOf s.e.val s.draw), phase := .expe }

/-- `EXPE` (R111). -/
def execExpe (s : State) : Host.Outcome State Fault Refusal :=
  .next { s with xstr := .now (bin s.bexp.val.toNat 11), phase := .msel }

end Sys2Proof.Machine
end

