-- ==== Sys2Proof/Machine/Hold.lean ====
section
/-! DEFINITION. The three hold phases (R131 to R133): nothing is written. The command presented in the step, if any, is carried
out by `step` (entry 8). -/

namespace Sys2Proof.Machine

/-- `IDLE` (R131). -/
def execIdle (s : State) : Host.Outcome State Fault Refusal := .next s

/-- `DONE` (R132). -/
def execDone (s : State) : Host.Outcome State Fault Refusal := .next s

/-- `FAULT` (R133). -/
def execFault (s : State) : Host.Outcome State Fault Refusal := .next s

end Sys2Proof.Machine
end

