-- ==== Sys2Proof/Machine/Mantissa.lean ====
section
/-! DEFINITION. The mantissa fractional-bit extractor (R120 to R124). -/

namespace Sys2Proof.Machine

/-- `MSTR` with no value in any cell (R120): the contents are free values (entry 4). -/
def emptyMstr (draw : Nat) : Vector (Reg Chr) 52 := Vector.ofFn fun k => .empty (Config.freeMstr draw k.val)

/-- `MSEL` (R120). -/
def execMsel (s : State) : Host.Outcome State Fault Refusal :=
  .next
    { s with
      rem := .now (selectRem s.mag.val s.bexp.val s.draw)
      k := .now 0
      mstr := emptyMstr s.draw
      phase := .mext }

/-- `MEXT` (R122): one doubling. `K = 51` before the step makes it the last; `PHASE` stays otherwise. A `K` above 51, which no
run reaches, names no cell and none is written (entry 7). -/
def execMext (s : State) : Host.Outcome State Fault Refusal :=
  .next
    { s with
      mstr := s.mstr.setIfInBounds s.k.val.toNat (.now (double s.rem.val).1)
      rem := .now (double s.rem.val).2
      k := .now (nextK s.k.val s.draw)
      phase := if s.k.val.toNat = 51 then .asm else s.phase }

end Sys2Proof.Machine
end

