-- ==== Sys2Proof/Machine/Sign.lean ====
section
/-! DEFINITION. The sign detector (R100 to R103). -/

namespace Sys2Proof.Machine

/-- `SIGN` (R100): a NaN operand raises `NAN_OPERAND` and nothing else is written; any other sets `S`, `MAG` and `E`. -/
def execSign (s : State) : Host.Outcome State Fault Refusal :=
  .next <|
    match unpack s.opd.val with
    | .nan => raiseFault .nanOperand s
    | .num v => { s with sbit := .now v.sign, mag := .now v.abs, e := .now Config.eStart, phase := .exps }

end Sys2Proof.Machine
end

