-- ==== Sys2Proof/Machine/Dispatch.lean ====
section
/-! DEFINITION. One arm for each row of the opcode table. -/

namespace Sys2Proof.Machine

def exec (i : Instr) (s : State) : Host.Outcome State Fault Refusal :=
  match i with
  | .nop w => Sys2Proof.Machine.execNop w s
  | .encode w => Sys2Proof.Machine.execEncode w s
  | .idle => Sys2Proof.Machine.execIdle s
  | .sign => Sys2Proof.Machine.execSign s
  | .exps => Sys2Proof.Machine.execExps s
  | .bias => Sys2Proof.Machine.execBias s
  | .expe => Sys2Proof.Machine.execExpe s
  | .msel => Sys2Proof.Machine.execMsel s
  | .mext => Sys2Proof.Machine.execMext s
  | .asm => Sys2Proof.Machine.execAsm s
  | .done => Sys2Proof.Machine.execDone s
  | .fault => Sys2Proof.Machine.execFault s

end Sys2Proof.Machine
end

