-- ==== Sys2Proof/Machine/Ports.lean ====
section
/-! DEFINITION. What the host sees on the output ports (R38), its reads of `OUT` (R43), and how words are put on the inputs. -/

namespace Sys2Proof.Machine

/-- Port `rd_char` for index `i` (R43): the code of the character in `OUT[i]` while `VALID = 1`, rendered here and nowhere
else (R52, D9); at any other time an unspecified character, a free value (R47, entry 5). A read changes no state. -/
def State.readCell (s : State) (i : Nat) : Byte :=
  if s.valid then ((s.out.read i).map charCode).getD (Config.freeRead s.draw i) else Config.freeRead s.draw i

/-- `MemRead(i, n)` (R43), defined for `1 ≤ n` and `i + n ≤ 64`: `n` single-cell reads in index order. -/
def State.memRead (s : State) (i n : Nat) : Option (List Byte) :=
  if 1 ≤ n ∧ i + n ≤ 64 then some ((List.range' i n).map s.readCell) else none

/-- The output ports (R38). -/
structure PortOut where
  rdChar : Byte
  busy   : Bool
  valid  : Bool
  fault  : Bool
  cause  : BitVec 2
  deriving DecidableEq, Repr

/-- The output ports in the present step: combinational in the state and `rd_index` (R38, R43). -/
def State.outputs (s : State) : PortOut where
  rdChar := s.readCell s.port.rdIndex.toNat
  busy   := s.busy
  valid  := s.valid
  fault  := s.faulted
  cause  := causeCode s.cause

/-- The ports of a host that presents a 65-bit command (R60). -/
def PortIn.ofCommand (c : BitVec 65) : PortIn := ⟨false, c.getLsbD 64, c.setWidth 64, 0⟩

/-- `s` with a table word where the next step fetches it (entry 10): a command is put before the inputs still to come; a phase
code selects the micro-operation, and the host presents nothing in that step. A reserved phase code changes nothing. DESIGN CHOICE (entry 10): bits above the format's width are cut off, where
`decodeTableWord` refuses such a word. -/
def fetchFrom (s : State) (nbits w : Nat) : State :=
  match tableFormat nbits with
  | some .cmd => { s with inputs := .ofCommand (BitVec.ofNat 65 w) :: s.inputs }
  | some .phase =>
    match phaseOfCode (BitVec.ofNat 4 w) with
    | some p => { s with phase := p, inputs := .quiet :: s.inputs }
    | none => s
  | none => s

end Sys2Proof.Machine
end

