-- ==== Sys2Proof/Machine/Fetch.lean ====
section
/-! DEFINITION. What a step does around the two instructions it runs (R79, R145). -/

namespace Sys2Proof.Machine

/-- Run `f` on the next state, or pass the stop on. -/
def andThen (o : Host.Outcome State Fault Refusal) (f : State → Host.Outcome State Fault Refusal) :
    Host.Outcome State Fault Refusal :=
  match o with
  | .next s => f s
  | .fault r => .fault r
  | .refused r => .refused r

/-- The micro-operation or hold that `PHASE` selects, read through the decoder (R68). -/
def State.microOp (s : State) : Except DecodeError Instr := decodePhase s.phase.code

/-- One step (R79, R145): `rst` first; otherwise the command on the ports and then the micro-operation that `PHASE` named
before the step. In a busy phase the command has no effect, and in a hold phase the micro-operation has none (entry 8). -/
def stepOnce (s : State) : Host.Outcome State Fault Refusal :=
  if s.port.rst then .next (afterReset s)
  else
    match s.microOp with
    | .ok i => andThen (exec (decodeCommand s.port.command) s.consume) (exec i)
    | .error _ => .refused .reservedPhase

end Sys2Proof.Machine
end

