-- ==== Sys2Proof/Machine/Step.lean ====
section
/-! DEFINITION. The step function and the host's way to place an instruction. -/

namespace Sys2Proof.Machine

/-- One rising edge of `clk` (R79, R169). -/
def step (s : State) : Host.Outcome State Fault Refusal := stepOnce s

/-- `s` with the instruction of a table word placed where `step` takes its next instruction (entry 10). -/
def State.withFetchWord (s : State) (nbits w : Nat) : State := fetchFrom s nbits w

end Sys2Proof.Machine
end

