-- ==== Sys2Proof/Machine/Operation.lean ====
section
/-! DEFINITION. The whole-operation function `ENC` (R80), over the same arithmetic as the micro-operations. -/

namespace Sys2Proof.Machine

/-- What one operation gives: a string of characters, first character first, or the fault (R80). -/
inductive EncResult where
  | string (chars : List Chr)
  | fault (c : Cause)
  deriving DecidableEq, Repr

/-- The search loop of R80, at most `n` iterations. -/
def searchLoop (m : Magnitude) : Nat → BitVec 12 → BitVec 12
  | 0, e => e
  | n + 1, e =>
    match searchStep m e with
    | some e' => searchLoop m n e'
    | none => e

/-- The doubling loop of R80: `n` characters. -/
def doublingLoop : Nat → BitVec 52 → List Chr
  | 0, _ => []
  | n + 1, r => (double r).1 :: doublingLoop n (double r).2

/-- The exponent at which the search exits (R114). An operation has at most 1025 `EXPS` steps (R168). -/
def finalE (m : Magnitude) : BitVec 12 := searchLoop m 1025 Config.eStart

/-- The string of a value that is not NaN (R80, steps 1 to 4 and assembly). `draw` keys the free values of register contents
that no operation reaches (entry 7); no result depends on it. -/
def encNumber (draw : Nat) (v : Number) : List Chr :=
  let b := biasOf (finalE v.abs) draw
  v.sign :: ((bin b.toNat 11).toList ++ doublingLoop 52 (selectRem v.abs b draw))

/-- `ENC(w)` (R80). -/
def enc (draw : Nat) (w : Word) : EncResult :=
  match unpack w with
  | .nan => .fault .nanOperand
  | .num v => .string (encNumber draw v)

end Sys2Proof.Machine
end

