-- ==== Sys2Proof/Machine/Call.lean ====
section
/-! DEFINITION. The pseudo-instruction `encode(v)` (R67) as a host that drives the ports, and the textual forms (R66). -/

namespace Sys2Proof.Machine

/-- Present nothing, at most `n` steps, until `BUSY = 0`. -/
def waitIdle : Nat → State → Host.Outcome State Fault Refusal
  | 0, s => .next s
  | n + 1, s => if s.busy then andThen (step { s with inputs := [] }) (waitIdle n) else .next s

/-- The ports of a host that presents `ENCODE w` (R60). -/
def PortIn.encode (w : Word) : PortIn := ⟨false, true, w, 0⟩

/-- The expansion of `encode(v)` (R67): wait until `BUSY = 0`, present `ENCODE` for one step, present nothing until `VALID` or
`FAULT`. Each wait is at most 1083 steps (R82). -/
def callEncode (w : Word) (s : State) : Host.Outcome State Fault Refusal :=
  andThen (waitIdle 1083 s) fun s1 =>
    andThen (step { s1 with inputs := [PortIn.encode w] }) (waitIdle 1083)

/-- What the host reports at the end of `encode(v)` (R67): `MemRead(0, 64)` as characters if `VALID = 1`, the fault with
`CAUSE` if `FAULT = 1`, and nothing otherwise. -/
def State.report (s : State) : Option EncResult :=
  if s.valid then (s.memRead 0 64).bind fun bs => (bs.mapM charOfCode).map EncResult.string
  else if s.faulted then some (.fault s.cause)
  else none

/-- A hexadecimal digit. -/
def hexDigit (n : Nat) : Char := (['0', '1', '2', '3', '4', '5', '6', '7', '8', '9', 'A', 'B', 'C', 'D', 'E', 'F'])[n]?.getD '0'

/-- The `n` low hexadecimal digits of a number, most significant first. -/
def hexDigits : Nat → Nat → List Char
  | 0, _ => []
  | n + 1, w => hexDigit (w / 16 ^ n % 16) :: hexDigits n w

/-- The textual form of an instruction (R66). -/
def instrText : Instr → String
  | .nop _ => "NOP"
  | .encode w => "ENCODE 0x" ++ String.ofList (hexDigits 16 w.toNat)
  | .idle => "IDLE"
  | .sign => "SIGN"
  | .exps => "EXPS"
  | .bias => "BIAS"
  | .expe => "EXPE"
  | .msel => "MSEL"
  | .mext => "MEXT"
  | .asm => "ASM"
  | .done => "DONE"
  | .fault => "FAULT"

end Sys2Proof.Machine
end

