-- ==== Sys2Proof/Safety.lean ====
section
/-! DEFINITION. The terms the claims use: what a magnitude and a remainder are as rationals (R23, R27, R105), when a register
that is read holds a value (R34, R35), and the invariant of every operation. -/

namespace Sys2Proof.Safety

open Sys2Proof.Machine

/-- A finite `MAG_N` as the rational `MAG = MAG_N × 2^-1074` (R23). -/
def magRat (n : BitVec 2098) : ℚ := n.toNat * (2 : ℚ) ^ (-1074 : ℤ)

/-- `REM = REM_R × 2^-52` (R27). -/
def remRat (r : BitVec 52) : ℚ := r.toNat * (2 : ℚ) ^ (-52 : ℤ)

/-- `frac(q, e) = q / 2^e - 1` over the rationals (R105). -/
def frac (q : ℚ) (e : ℤ) : ℚ := q / 2 ^ e - 1

/-- The NaN words (R59). -/
abbrev IsNaN (w : Word) : Prop := (expField w).toNat = 2047 ∧ (mantField w).toNat ≠ 0

/-- `E` at the exit of the search, for the operand word `w` that is not NaN (R114): `b - 1023` in every class. -/
def exitE (w : Word) : Int := (expField w).toNat - 1023

/-- The mark of a whole mantissa string: its first `n` cells hold a value (R28). -/
def mstrHeld (s : State) (n : Nat) : Prop := ∀ j : Fin 52, j.val < n → s.mstr[j].held = true

/-- Every register the coming micro-operation reads holds a value (R34, R35). -/
def ReadsHeld (s : State) : Prop :=
  match s.phase with
  | .sign => s.opd.held = true
  | .exps => s.mag.held = true ∧ s.e.held = true
  | .bias => s.e.held = true
  | .expe => s.bexp.held = true
  | .msel => s.mag.held = true ∧ s.bexp.held = true
  | .mext => s.rem.held = true ∧ s.k.held = true
  | .asm => s.sbit.held = true ∧ s.xstr.held = true ∧ mstrHeld s 52
  | .idle | .done | .fault => True

/-- `OPD` holds a value that is not NaN, and `S` and `MAG` are its sign and magnitude (R100). -/
def Signed (s : State) : Prop :=
  s.opd.held = true ∧ ∃ v, unpack s.opd.val = .num v ∧ s.sbit = .now v.sign ∧ s.mag = .now v.abs

/-- Cell `j` of `MSTR` holds the mantissa character of the operand (R124). -/
def CellDone (s : State) (j : Fin 52) : Prop := s.mstr[j] = .now ((mantField s.opd.val).getLsbD (51 - j.val))

/-- What each phase finds (R78, R35, R107, R114, R121, R124). -/
def PhaseInv (s : State) : Prop :=
  match s.phase with
  | .idle => True
  | .sign => s.opd.held = true
  | .exps => Signed s ∧ s.e.held = true ∧
      ((0 ≤ s.e.val.toInt ∧ s.e.val.toInt ≤ exitE s.opd.val) ∨ (exitE s.opd.val ≤ s.e.val.toInt ∧ s.e.val.toInt ≤ 0))
  | .bias => Signed s ∧ s.e.held = true ∧ s.e.val.toInt = exitE s.opd.val
  | .expe => Signed s ∧ s.bexp = .now (expField s.opd.val)
  | .msel => Signed s ∧ s.bexp = .now (expField s.opd.val) ∧ s.xstr = .now (bin (expField s.opd.val).toNat 11)
  | .mext => Signed s ∧ s.xstr = .now (bin (expField s.opd.val).toNat 11) ∧ s.k.held = true ∧ s.k.val.toNat ≤ 51 ∧
      s.rem = .now (mantField s.opd.val <<< s.k.val.toNat) ∧
      (∀ j : Fin 52, j.val < s.k.val.toNat → CellDone s j) ∧
      (∀ j : Fin 52, s.k.val.toNat ≤ j.val → s.mstr[j].held = false)
  | .asm => Signed s ∧ s.xstr = .now (bin (expField s.opd.val).toNat 11) ∧ s.k = .now 52 ∧ ∀ j, CellDone s j
  | .done => ¬ IsNaN s.opd.val ∧ ∀ i < 64, s.out.read i = some (s.opd.val.getLsbD (63 - i))
  | .fault => IsNaN s.opd.val

/-- The invariant of the machine: `CAUSE` (R32), the window of `OUT` (R33, R47), the form of `OUT`, and what each phase finds. -/
structure MachineInv (s : State) : Prop where
  cause : s.cause = .nanOperand ↔ s.phase = .fault
  window : s.phase ≠ .done → s.out = []
  form : s.out.wf = true
  phase : PhaseInv s

/-- The steps from the acceptance of `ENCODE w` to the hold phase, the accepting step included (R168). -/
def operationSteps (w : Word) : Nat :=
  if IsNaN w then 2 else 59 + (exitE w).natAbs

/-- No cell of `OUT` and no register but the two the spec resets holds a value (R36). -/
def NothingHeld (s : State) : Prop :=
  s.opd.held = false ∧ s.sbit.held = false ∧ s.mag.held = false ∧ s.e.held = false ∧ s.bexp.held = false ∧
  s.xstr.held = false ∧ s.rem.held = false ∧ (∀ j : Fin 52, s.mstr[j].held = false) ∧ s.k.held = false ∧ s.out = []

/-- Two states at the same point of an operation on the same operand, whatever else their registers hold (R37). -/
structure SamePoint (s t : State) : Prop where
  phase : s.phase = t.phase
  inputs : s.inputs = t.inputs
  operand : s.phase ≠ .idle → s.opd = t.opd
  search : s.phase = .exps → s.e = t.e
  count : s.phase = .mext → s.k = t.k

/-- The phase after a step of R78's graph, from the state before the step. -/
def nextPhase (s : State) : Phase :=
  if s.port.rst then .idle
  else
    match s.phase with
    | .idle | .done | .fault => if s.port.start then .sign else s.phase
    | .sign => if IsNaN s.opd.val then .fault else .exps
    | .exps =>
      if (fracGeOne s.mag.val s.e.val.toInt = true ∧ s.e.val.toInt < 1024) ∨
        (fracNeg s.mag.val s.e.val.toInt = true ∧ s.e.val.toInt > -1023) then .exps else .bias
    | .bias => .expe
    | .expe => .msel
    | .msel => .mext
    | .mext => if s.k.val.toNat = 51 then .asm else .mext
    | .asm => .done

end Sys2Proof.Safety
end

