-- ==== Sys2Proof/Certificates/Slice0/Obligations.lean ====
section
/-! DEFINITION. The statements for the provers. -/

open Sys2Proof Sys2Proof.Machine Sys2Proof.Safety

/-! ## Reset, ports and flags -/

/-- R36: after reset `PHASE = IDLE`, `CAUSE = 0`, the three flags are 0, and nothing else holds a value. (The contents of the
registers that hold no value are the model's choice, entry 2; nothing is stated of them.) -/
def Obligations.ResetIsIdleWithNothingHeld : Prop :=
  State.reset.phase = .idle ∧ State.reset.cause = .none ∧ causeCode State.reset.cause = 0 ∧
  State.reset.busy = false ∧ State.reset.valid = false ∧ State.reset.faulted = false ∧ NothingHeld State.reset

/-- The invariant holds at reset. -/
def Obligations.ResetMeetsInvariant : Prop := MachineInv State.reset

/-- R160, R145: a step with `rst = 1` gives the reset state whatever the phase, the command and the registers; the command is
lost. (What the emptied registers store is the model's choice, entry 3; nothing is stated of it.) -/
def Obligations.ResetStepWins : Prop :=
  ∀ s : State, s.port.rst = true →
    ∃ t, step s = .next t ∧ t.phase = .idle ∧ t.cause = .none ∧ NothingHeld t ∧ t.inputs = s.inputs.tail

/-- R31: the flags are functions of `PHASE`, at most one is 1, and all are 0 exactly in `IDLE`; the output ports show them. -/
def Obligations.FlagsAreFunctionsOfPhase : Prop :=
  ∀ s : State,
    (s.busy = true ↔ s.phase ∈ [Phase.sign, .exps, .bias, .expe, .msel, .mext, .asm]) ∧
    (s.valid = true ↔ s.phase = .done) ∧ (s.faulted = true ↔ s.phase = .fault) ∧
    (s.busy && s.valid) = false ∧ (s.busy && s.faulted) = false ∧ (s.valid && s.faulted) = false ∧
    ((s.busy = false ∧ s.valid = false ∧ s.faulted = false) ↔ s.phase = .idle) ∧
    s.outputs.busy = s.busy ∧ s.outputs.valid = s.valid ∧ s.outputs.fault = s.faulted ∧
    s.outputs.cause = causeCode s.cause

/-- R43, R45: `MemRead(i, n)` is `n` single-cell reads in index order for `1 ≤ n`, `i + n ≤ 64`; port `rd_char` shows the cell
that `rd_index` names; while `VALID = 1` a cell that holds `'0'` shows 0x30 there and one that holds `'1'` shows 0x31 (R52). -/
def Obligations.MemReadReadsCellsInOrder : Prop :=
  ∀ (s : State) (i n : Nat),
    (1 ≤ n → i + n ≤ 64 →
      ∃ bs, s.memRead i n = some bs ∧ bs.length = n ∧ ∀ j < n, bs[j]? = some (s.readCell (i + j))) ∧
    s.outputs.rdChar = s.readCell s.port.rdIndex.toNat ∧
    (s.valid = true → s.out.read i = some false → s.readCell i = 0x30) ∧
    (s.valid = true → s.out.read i = some true → s.readCell i = 0x31)

/-! ## The commands and the hold phases -/

/-- R75: `ENCODE` in a hold phase captures the operand, clears the cause, empties `OUT` and goes to `SIGN`, so that `BUSY`
becomes 1 and `VALID` and `FAULT` become 0; nothing else of the spec's state is written. With `BUSY = 1` it has no effect at
all. (`draw` is the model's own key of free values.) -/
def Obligations.EncodeIsAcceptedExactlyWhenNotBusy : Prop :=
  ∀ (w : Word) (s : State),
    (s.busy = false →
      exec (.encode w) s =
        .next { s with opd := .now w, cause := .none, out := [], phase := .sign, draw := s.draw + 1 }) ∧
    (s.busy = true → exec (.encode w) s = .next s)

/-- R76 and the "nothing is written" of R131, R132, R133: `NOP` and the three hold phases complete and leave the whole state. -/
def Obligations.NopAndHoldPhasesWriteNothing : Prop :=
  ∀ (w : Word) (s : State),
    exec (.nop w) s = .next s ∧ exec .idle s = .next s ∧ exec .done s = .next s ∧ exec .fault s = .next s

/-- In a hold phase with `rst = 0` the step performs the command presented: `ENCODE` captures the operand port; `NOP` leaves the
state (R131 to R133); the inputs move on by one step. -/
def Obligations.HoldStepPerformsTheCommand : Prop :=
  ∀ s : State, s.busy = false → s.port.rst = false →
    (s.port.start = true →
      ∃ t, step s = .next t ∧ t.opd = .now s.port.operand ∧ t.cause = .none ∧ t.out = [] ∧ t.phase = .sign ∧
        t.sbit = s.sbit ∧ t.mag = s.mag ∧ t.e = s.e ∧ t.bexp = s.bexp ∧ t.xstr = s.xstr ∧ t.rem = s.rem ∧
        t.mstr = s.mstr ∧ t.k = s.k ∧ t.inputs = s.inputs.tail) ∧
    (s.port.start = false → step s = .next { s with inputs := s.inputs.tail })

/-! ## SIGN -/

/-- R100: a NaN operand raises the fault and writes nothing but `CAUSE` and `PHASE`; any other sets `S` by the two sign
predicates, `MAG` to the absolute value, `E` to 0 and goes to `EXPS`; nothing else is written. R102: the absolute value drops
the sign and keeps the magnitude. -/
def Obligations.SignClassifiesTheOperand : Prop :=
  (∀ q n, (Number.fin q n).abs = .fin n) ∧ (∀ q, (Number.inf q).abs = .inf) ∧
  ∀ s : State,
    (unpack s.opd.val = .nan → exec .sign s = .next { s with cause := .nanOperand, phase := .fault }) ∧
    (∀ v, unpack s.opd.val = .num v →
      exec .sign s =
        .next { s with sbit := .now (v.isNegative || v.isNegativeZero), mag := .now v.abs, e := .now 0, phase := .exps })

/-- R101: `is_negative` is true of `Fin(1, q)` with `q > 0` and of `Inf(1)` only, `is_negative_zero` of `Fin(1, 0)` only, and
together they give bit 63 of every operand word that is not NaN. -/
def Obligations.SignPredicatesGiveBit63 : Prop :=
  (∀ s n, (Number.fin s n).isNegative = true ↔ s = true ∧ magRat n > 0) ∧
  (∀ s, (Number.inf s).isNegative = true ↔ s = true) ∧
  (∀ s n, (Number.fin s n).isNegativeZero = true ↔ s = true ∧ magRat n = 0) ∧
  (∀ s, (Number.inf s).isNegativeZero = false) ∧
  ∀ w v, unpack w = .num v → (v.isNegative || v.isNegativeZero) = w.getLsbD 63

/-- R57: `unpack` gives each class of operand word the value the rule gives it, over the rationals. -/
def Obligations.UnpackGivesTheValueOfEachClass : Prop :=
  ∀ w : Word,
    let s := w.getLsbD 63
    let b : Nat := w.toNat / 2 ^ 52 % 2 ^ 11
    let m : Nat := w.toNat % 2 ^ 52
    (b = 0 → ∃ n, unpack w = .num (.fin s n) ∧ magRat n = m * (2 : ℚ) ^ (-1074 : ℤ)) ∧
    (1 ≤ b → b ≤ 2046 →
      ∃ n, unpack w = .num (.fin s n) ∧ magRat n = (2 ^ 52 + m) * (2 : ℚ) ^ ((b : ℤ) - 1075)) ∧
    (b = 2047 → m = 0 → unpack w = .num (.inf s)) ∧
    (b = 2047 → m ≠ 0 → unpack w = .nan)

/-! ## EXPS, BIAS, EXPE -/

/-- R105: the two tests of the search are the comparisons of the exact `q / 2^e - 1` with 1 and 0, which are comparisons of `q`
with powers of two and, for `e` in -1023 .. 1024, of `MAG_N` with `2^(e + 1075)` and `2^(e + 1074)`; an infinite magnitude
counts as at least 1 and not below 0. -/
def Obligations.SearchTestsCompareTheExactFraction : Prop :=
  (∀ (n : BitVec 2098) (e : Int),
    (fracGeOne (.fin n) e = true ↔ frac (magRat n) e ≥ 1) ∧
    (fracNeg (.fin n) e = true ↔ frac (magRat n) e < 0) ∧
    (frac (magRat n) e ≥ 1 ↔ magRat n ≥ (2 : ℚ) ^ (e + 1)) ∧
    (frac (magRat n) e < 0 ↔ magRat n < (2 : ℚ) ^ e) ∧
    ((0 ≤ frac (magRat n) e ∧ frac (magRat n) e < 1) ↔ ((2 : ℚ) ^ e ≤ magRat n ∧ magRat n < (2 : ℚ) ^ (e + 1))) ∧
    (-1023 ≤ e → e ≤ 1024 →
      (fracGeOne (.fin n) e = true ↔ n.toNat ≥ 2 ^ (e + 1075).toNat) ∧
      (fracNeg (.fin n) e = true ↔ n.toNat < 2 ^ (e + 1074).toNat))) ∧
  ∀ e : Int, fracGeOne .inf e = true ∧ fracNeg .inf e = false

/-- R106: one `EXPS` step, by the exact fraction, with the bounds -1023 and 1024; nothing but `E` or `PHASE` is written, and
`E + 1` and `E - 1` do not wrap. -/
def Obligations.ExpsMakesOneSearchStep : Prop :=
  ∀ s : State,
    let e := s.e.val.toInt
    let up := ∃ e' : BitVec 12, e'.toInt = e + 1 ∧ exec .exps s = .next { s with e := .now e' }
    let down := ∃ e' : BitVec 12, e'.toInt = e - 1 ∧ exec .exps s = .next { s with e := .now e' }
    let leave := exec .exps s = .next { s with phase := .bias }
    (∀ n, s.mag.val = .fin n →
      (frac (magRat n) e ≥ 1 ∧ e < 1024 → up) ∧
      (frac (magRat n) e < 0 ∧ e > -1023 → down) ∧
      (¬ (frac (magRat n) e ≥ 1 ∧ e < 1024) → ¬ (frac (magRat n) e < 0 ∧ e > -1023) → leave)) ∧
    (s.mag.val = .inf → (e < 1024 → up) ∧ (e ≥ 1024 → leave))

/-- R109: `BIAS` writes `max(0, E + 1023)`, for every `E` that R108 allows (up to 1024), and goes to `EXPE`; nothing else is
written. Above 1024, where the rules give no value that fits `BEXP`, it completes with some value: that clause is the model's
choice (DESIGN CHOICE, entry 7), not a rule's. -/
def Obligations.BiasAddsBiasAndClamps : Prop :=
  ∀ s : State, ∃ b : BitVec 11,
    exec .bias s = .next { s with bexp := .now b, phase := .expe } ∧
    (s.e.val.toInt ≤ 1024 → (b.toNat : Int) = max 0 (s.e.val.toInt + 1023))

/-- R111: `EXPE` writes `XSTR[j]` from bit `10 - j` of `BEXP` and goes to `MSEL`; nothing else is written. -/
def Obligations.ExpeRendersElevenCharacters : Prop :=
  ∀ s : State, ∃ x : Vector Chr 11,
    exec .expe s = .next { s with xstr := .now x, phase := .msel } ∧
    ∀ j : Fin 11, x[j] = s.bexp.val.getLsbD (10 - j.val)

/-- R113: `bin(n, w)` has the digits the rule gives, and read as a base-2 number it is the low `w` digits of `n`. -/
def Obligations.BinSpellsTheLowDigits : Prop :=
  ∀ n w : Nat,
    (∀ j : Fin w, ((bin n w)[j] = true ↔ n / 2 ^ (w - 1 - j.val) % 2 = 1)) ∧
    (bin n w).toList.foldl (fun a c => 2 * a + c.toNat) 0 = n % 2 ^ w

/-- R107, R114: on every operand word that is not NaN the search exits with `E = b - 1023`, and biasing that gives field `b`. -/
def Obligations.SearchExitsAtTheOperandExponent : Prop :=
  ∀ (w : Word) (v : Number) (draw : Nat), unpack w = .num v →
    (finalE v.abs).toInt = exitE w ∧ biasOf (finalE v.abs) draw = expField w ∧ searchStep v.abs (finalE v.abs) = none

/-! ## MSEL, MEXT -/

/-- R120: `MSEL` loads 0 for an infinite magnitude, `MAG / 2^(-1022)` where `BEXP = 0` and `MAG / 2^U - 1` otherwise, exactly,
wherever that fraction is one `REM` can hold; `K` becomes 0, every cell of `MSTR` loses its value, `MEXT` is next, and nothing
else is written. That `MSEL` completes where no content of `REM` is the fraction too, with a value there that nothing is
stated of, is the model's choice (DESIGN CHOICE, entry 7); by R121 no operand reaches it. -/
def Obligations.MselLoadsTheInitialFraction : Prop :=
  ∀ s : State, ∃ (r : BitVec 52) (m : Vector (Reg Chr) 52),
    exec .msel s = .next { s with rem := .now r, k := .now 0, mstr := m, phase := .mext } ∧
    (∀ j : Fin 52, m[j].held = false) ∧
    (s.mag.val = .inf → remRat r = 0) ∧
    (∀ n, s.mag.val = .fin n → s.bexp.val = 0 →
      ∀ x, remRat x = magRat n / (2 : ℚ) ^ (-1022 : ℤ) → r = x) ∧
    (∀ n, s.mag.val = .fin n → s.bexp.val ≠ 0 →
      ∀ x, remRat x = magRat n / (2 : ℚ) ^ ((s.bexp.val.toNat : ℤ) - 1023) - 1 → r = x)

/-- R121: for every operand word that is not NaN, with its own magnitude and biased exponent, the initial fraction is the
mantissa field over 2^52 (0 for an infinity), so it is in [0, 1) and the register loses nothing. -/
def Obligations.InitialFractionIsTheMantissaField : Prop :=
  ∀ (w : Word) (v : Number) (draw : Nat), unpack w = .num v →
    selectRem v.abs (expField w) draw = mantField w ∧
    (∀ q, v = .inf q → selectRem v.abs (expField w) draw = 0) ∧
    0 ≤ remRat (selectRem v.abs (expField w) draw) ∧ remRat (selectRem v.abs (expField w) draw) < 1

/-- R122: one `MEXT` step with `K` in 0 .. 51: the remainder is doubled exactly; at 1 or more `'1'` is emitted into cell `K` and
1 subtracted, else `'0'`; `K` grows by 1; the 52nd iteration goes to `ASM`; no other cell and no other register is written. -/
def Obligations.MextEmitsOneCharacter : Prop :=
  ∀ s : State, s.k.val.toNat ≤ 51 →
    ∃ (c : Chr) (r : BitVec 52) (k : BitVec 6) (m : Vector (Reg Chr) 52),
      exec .mext s =
        .next { s with mstr := m, rem := .now r, k := .now k, phase := if s.k.val.toNat = 51 then .asm else s.phase } ∧
      k.toNat = s.k.val.toNat + 1 ∧
      (∀ j : Fin 52, m[j] = if j.val = s.k.val.toNat then .now c else s.mstr[j]) ∧
      (2 * remRat s.rem.val ≥ 1 → c = true ∧ remRat r = 2 * remRat s.rem.val - 1) ∧
      (2 * remRat s.rem.val < 1 → c = false ∧ remRat r = 2 * remRat s.rem.val)

/-- The model's own (entry 7): with `K` above 51, which no run reaches, `MEXT` still completes, and no cell of `MSTR` changes. -/
def Obligations.MextBeyondTheLastCellWritesNoCell : Prop :=
  ∀ s : State, s.k.val.toNat > 51 →
    ∃ t, exec .mext s = .next t ∧ t.mstr = s.mstr ∧ t.rem = .now (double s.rem.val).2 ∧ t.phase = s.phase

/-- R123: after 52 iterations the remainder is exactly 0, whatever it was: truncation discards nothing. -/
def Obligations.FiftyTwoDoublingsLeaveNothing : Prop :=
  ∀ r : BitVec 52, (fun x => (double x).2)^[52] r = 0

/-- R124: character `k` of the doubling loop is digit `51 - k` of the initial remainder, that is `MSTR = bin(REM0, 52)`. -/
def Obligations.DoublingLoopSpellsTheRemainder : Prop :=
  ∀ r : BitVec 52,
    doublingLoop 52 r = (bin r.toNat 52).toList ∧
    ∀ k < 52, (doublingLoop 52 r)[k]? = some (decide (r.toNat / 2 ^ (51 - k) % 2 = 1))

/-! ## ASM -/

/-- R130: `ASM` writes `chr(S) ++ XSTR ++ MSTR` into cells 0 to 63 and goes to `DONE`, in one step;
every cell outside 0 to 63 reads as before, and no other register is written. -/
def Obligations.AsmWritesTheWholeString : Prop :=
  ∀ s : State, ∃ m : Memory,
    exec .asm s = .next { s with out := m, phase := .done } ∧
    m.read 0 = some s.sbit.val ∧
    (∀ j : Fin 11, m.read (1 + j.val) = some s.xstr.val[j]) ∧
    (∀ k : Fin 52, m.read (12 + k.val) = some s.mstr[k].val) ∧
    (∀ a, ¬ (0 ≤ a ∧ a < 0 + 64) → m.read a = s.out.read a) ∧
    (s.out.wf = true → m.wf = true)

/-! ## Frames over all instructions -/

/-- The write sets of R35: each register is written only by the operations whose row marks it, and no cell of `OUT` changes but
by `ENCODE` and `ASM`; the inputs are never written by an instruction. -/
def Obligations.WritesStayInTheWriteSets : Prop :=
  ∀ (i : Instr) (s t : State), exec i s = .next t →
    ((∀ w, i ≠ .encode w) → t.opd = s.opd ∧ t.draw = s.draw) ∧
    (i ≠ .sign → t.sbit = s.sbit ∧ t.mag = s.mag) ∧
    (i ≠ .sign → i ≠ .exps → t.e = s.e) ∧
    (i ≠ .bias → t.bexp = s.bexp) ∧
    (i ≠ .expe → t.xstr = s.xstr) ∧
    (i ≠ .msel → i ≠ .mext → t.rem = s.rem ∧ t.mstr = s.mstr ∧ t.k = s.k) ∧
    ((∀ w, i ≠ .encode w) → i ≠ .asm → ∀ a, t.out.read a = s.out.read a) ∧
    ((∀ w, i ≠ .encode w) → i ≠ .sign → t.cause = s.cause) ∧
    t.inputs = s.inputs

/-- Every instruction completes in every state (R79: the step function is total). -/
def Obligations.EveryInstructionCompletes : Prop :=
  ∀ (i : Instr) (s : State), ∃ t, exec i s = .next t

/-! ## Decoding -/

/-- Decoding an encoded instruction gives it back, for every instruction and every operand word (R60, R61, R68): as a raw word
of its format's 65 or 4 bits. The clauses on bytes and on table words, at 65 and 4 bits and padded to whole bytes, rest on the
model's layout (DESIGN CHOICE, entry 9): the spec gives no byte order and no other width than 65 and 4. -/
def Obligations.DecodeOfEncodeIsTheInstruction : Prop :=
  ∀ i : Instr,
    (encode i).wf = true ∧ decode (encode i) = .ok i ∧ decodeBytes (encodeBytes i) = .ok i ∧
    decodeTableWord i.format.width (encode i).bits = some i ∧ decodeTableWord (8 * i.format.nbytes) (encode i).bits = some i

/-- A raw word decodes exactly when it is well formed: both command codes and every operand word are assigned, phase codes 10
to 15 are reserved and no width but 65 and 4 exists (R64); and a word that decodes is the encoding of what it decodes to. -/
def Obligations.ExactlyTheAssignedWordsDecode : Prop :=
  ∀ r : RawWord,
    ((∃ i, decode r = .ok i) ↔ r.wf = true) ∧
    (∀ i, decode r = .ok i → encode i = r) ∧
    (r.format = .phase → 10 ≤ r.bits → r.bits ≤ 15 → decode r = .error (.reservedPhase r.bits))

/-- Words written out from the code tables of R60 and R61 decode to the instructions they stand for. -/
def Obligations.WordsOfTheCodeTablesDecode : Prop :=
  decodeCommand 0b1_0011111111110000000000000000000000000000000000000000000000000000#65 = .encode 0x3FF0000000000000 ∧
  decodeCommand 0b0_0000000000000000000000000000000000000000000000000000000000000101#65 = .nop 5 ∧
  decodePhase 0b0000#4 = .ok .idle ∧ decodePhase 0b0001#4 = .ok .sign ∧ decodePhase 0b0010#4 = .ok .exps ∧
  decodePhase 0b0011#4 = .ok .bias ∧ decodePhase 0b0100#4 = .ok .expe ∧ decodePhase 0b0101#4 = .ok .msel ∧
  decodePhase 0b0110#4 = .ok .mext ∧ decodePhase 0b0111#4 = .ok .asm ∧ decodePhase 0b1000#4 = .ok .done ∧
  decodePhase 0b1001#4 = .ok .fault

/-! ## The step -/

/-- A step runs the decoded instructions: with `rst = 0` the command decoded from the ports, and then the micro-operation
decoded from `PHASE`, the inputs having moved on. That both run, and in this order, is the model's deduction (DEDUCED,
entry 8): R79 and R145 give a step one effect, which the other clauses state, the command alone in a hold phase and the
micro-operation alone in a busy phase. -/
def Obligations.StepRunsTheDecodedInstructions : Prop :=
  ∀ (s : State) (i : Instr), s.port.rst = false → decodePhase s.phase.code = .ok i →
    step s = andThen (exec (decodeCommand s.port.command) { s with inputs := s.inputs.tail }) (exec i) ∧
    (s.busy = false → step s = exec (decodeCommand s.port.command) { s with inputs := s.inputs.tail }) ∧
    (s.busy = true → step s = exec i { s with inputs := s.inputs.tail }) ∧
    (s.port.start = true → decodeCommand s.port.command = .encode s.port.operand) ∧
    (s.port.start = false → decodeCommand s.port.command = .nop s.port.operand)

/-- R79: the step function, arm by arm; it is total. (The reset state of the first arm is `ResetStepWins`.) -/
def Obligations.StepFollowsTheStepFunction : Prop :=
  ∀ s : State,
    let u := { s with inputs := s.inputs.tail }
    (∃ t, step s = .next t) ∧
    (s.port.rst = true → ∃ t, step s = .next t ∧ t.phase = .idle ∧ t.cause = .none ∧ NothingHeld t) ∧
    (s.port.rst = false →
      (s.phase ∈ [Phase.idle, .done, .fault] → s.port.start = true → step s = exec (.encode s.port.operand) u) ∧
      (s.phase ∈ [Phase.idle, .done, .fault] → s.port.start = false → step s = .next u) ∧
      (s.phase = .sign → step s = exec .sign u) ∧ (s.phase = .exps → step s = exec .exps u) ∧
      (s.phase = .bias → step s = exec .bias u) ∧ (s.phase = .expe → step s = exec .expe u) ∧
      (s.phase = .msel → step s = exec .msel u) ∧ (s.phase = .mext → step s = exec .mext u) ∧
      (s.phase = .asm → step s = exec .asm u))

/-- R78: `PHASE` moves along the graph and no other edge exists. -/
def Obligations.PhaseMovesAlongTheGraph : Prop :=
  ∀ s t : State, step s = .next t → t.phase = nextPhase s

/-- R163, R164: while `BUSY = 1` and `rst = 0`, what the host presents on `start`, `operand` and `rd_index` has no effect on the
next state at all, and in particular `OPD` keeps its word. -/
def Obligations.BusyStepIgnoresThePorts : Prop :=
  ∀ (s : State) (p q : PortIn) (r : List PortIn), s.busy = true → p.rst = false → q.rst = false →
    step { s with inputs := p :: r } = step { s with inputs := q :: r } ∧
    ∀ t, step { s with inputs := p :: r } = .next t → t.opd = s.opd

/-- R143, R140, R142: the machine enters `FAULT` from another phase only by `SIGN` on a NaN word, and that step writes `CAUSE = 1`
and `PHASE = FAULT` and nothing else. -/
def Obligations.FaultIsEnteredOnlyByANaN : Prop :=
  ∀ s t : State, step s = .next t → t.phase = .fault → s.phase ≠ .fault →
    s.phase = .sign ∧ IsNaN s.opd.val ∧
    t = { s with inputs := s.inputs.tail, cause := .nanOperand, phase := .fault } ∧ causeCode t.cause = 1

/-- R146: `FAULT` is left only by an accepted `ENCODE`, which clears the cause and goes to `SIGN`, or by reset; until then phase
and cause are held. -/
def Obligations.FaultIsLeftOnlyByEncodeOrReset : Prop :=
  ∀ s t : State, s.phase = .fault → step s = .next t →
    (s.port.rst = true ∧ t.phase = .idle ∧ t.cause = .none) ∨
    (s.port.rst = false ∧ s.port.start = true ∧ t.phase = .sign ∧ t.cause = .none) ∨
    (s.port.rst = false ∧ s.port.start = false ∧ t.phase = .fault ∧ t.cause = s.cause)

/-- R47: while `VALID = 1` and the host presents neither `ENCODE` nor reset, every cell reads the same after the step; and a
step that accepts `ENCODE` or resets leaves no cell with a value. -/
def Obligations.ResultIsStableUntilTheNextCommand : Prop :=
  ∀ s t : State, s.valid = true → step s = .next t →
    (s.port.rst = false → s.port.start = false → t.valid = true ∧ ∀ i, t.readCell i = s.readCell i) ∧
    (s.port.rst = true ∨ s.port.start = true → t.valid = false ∧ t.out = [])

/-- Every step keeps the canonical form of `OUT`, in every state. -/
def Obligations.StepKeepsTheFormOfOut : Prop :=
  ∀ s t : State, s.out.wf = true → step s = .next t → t.out.wf = true

/-! ## The invariant and what it gives -/

/-- Every step keeps the invariant: the cause is 1 exactly in `FAULT`, `OUT` is empty outside `DONE`, and at every phase the
registers hold what the rules make of the operand in `OPD`, up to `OUT` spelling it in `DONE`. -/
def Obligations.StepKeepsTheMachineInvariant : Prop :=
  ∀ s t : State, MachineInv s → step s = .next t → MachineInv t

/-- R34: under the invariant no micro-operation reads a register that holds no value. -/
def Obligations.NoReadOfAValuelessRegister : Prop :=
  ∀ s : State, MachineInv s → ReadsHeld s

/-- R32, R33: under the invariant `CAUSE ≠ 0` exactly when `PHASE = FAULT`, and `OUT` holds a string of 64 characters exactly when
`VALID = 1` and no value in any cell otherwise. -/
def Obligations.CauseAndOutFollowThePhase : Prop :=
  ∀ s : State, MachineInv s →
    (causeCode s.cause ≠ 0 ↔ s.phase = .fault) ∧
    (s.valid = true ↔ ∀ i < 64, ∃ c, s.out.read i = some c) ∧
    (s.valid = false ↔ ∀ i, s.out.read i = none)

/-- R112: under the invariant the counters stay in their ranges, so that the bias, the fraction and the count fit their
registers and no free value of entry 7 is drawn. -/
def Obligations.CountersStayInTheirRanges : Prop :=
  ∀ s : State, MachineInv s →
    (s.phase = .exps ∨ s.phase = .bias → -1023 ≤ s.e.val.toInt ∧ s.e.val.toInt ≤ 1024) ∧
    (s.phase = .bias → ∀ d, biasOf s.e.val d = biasOf s.e.val s.draw) ∧
    (s.phase = .msel → ∀ d, selectRem s.mag.val s.bexp.val d = selectRem s.mag.val s.bexp.val s.draw) ∧
    (s.phase = .mext → s.k.val.toNat ≤ 51 ∧ ∀ d, nextK s.k.val d = s.k.val + 1)

/-- Under the invariant, in `DONE` the host reads the operand word spelled most significant bit first (R63, R88): `MemRead(0, 64)`
is its 64 characters, and the sign, exponent and mantissa fields are where the address map puts them. -/
def Obligations.DoneReadsAsTheOperand : Prop :=
  ∀ s : State, MachineInv s → s.phase = .done →
    s.memRead 0 64 = some ((List.range 64).map fun i => charCode (s.opd.val.getLsbD (63 - i))) ∧
    s.memRead 0 1 = some [charCode (signField s.opd.val)] ∧
    s.memRead 1 11 = some ((bin (expField s.opd.val).toNat 11).toList.map charCode) ∧
    s.memRead 12 52 = some ((bin (mantField s.opd.val).toNat 52).toList.map charCode)

/-- R37: at the same point of an operation on the same operand, two machines that agree on nothing else stay at the same point,
and show the host the same flags, the same cause and, while `VALID = 1`, the same characters. -/
def Obligations.StaleContentsNeverShow : Prop :=
  ∀ s₁ s₂ t₁ t₂ : State, MachineInv s₁ → MachineInv s₂ → SamePoint s₁ s₂ → step s₁ = .next t₁ → step s₂ = .next t₂ →
    SamePoint t₁ t₂ ∧ t₁.busy = t₂.busy ∧ t₁.valid = t₂.valid ∧ t₁.faulted = t₂.faulted ∧ t₁.cause = t₂.cause ∧
    (t₁.valid = true → ∀ i < 64, t₁.readCell i = t₂.readCell i)

/-! ## Whole operations -/

/-- R88: for every operand word that is not NaN, `ENC` spells it, most significant bit first. (For ±∞ this rests on the spec's
decision D6.) -/
def Obligations.EncSpellsTheOperand : Prop :=
  ∀ (draw : Nat) (w : Word), ¬ IsNaN w →
    enc draw w = .string ((List.range 64).map fun i => w.getLsbD (63 - i))

/-- `ENC` gives 64 characters for every word that is not NaN (R80, R84; for ±∞ by the spec's decision D6) and the fault for every
NaN word (R80, R91; the spec's decision D7), and depends on the word alone and on no free value (R83). -/
def Obligations.EncIsTotalOnOperandWords : Prop :=
  ∀ (d₁ d₂ : Nat) (w : Word),
    enc d₁ w = enc d₂ w ∧
    (IsNaN w → enc d₁ w = .fault .nanOperand) ∧
    (¬ IsNaN w → ∃ cs, enc d₁ w = .string cs ∧ cs.length = 64)

/-- R86, R87: the first character is `'1'` exactly when the value is negative or negative zero, and flipping the sign bit of the
operand flips that character and leaves the other 63. -/
def Obligations.SignShowsOnlyInTheFirstCharacter : Prop :=
  ∀ (draw : Nat) (w : Word) (v : Number), unpack w = .num v →
    ∃ cs, enc draw w = .string ((v.isNegative || v.isNegativeZero) :: cs) ∧
      enc draw (w ^^^ 0x8000000000000000#64) = .string ((!(v.isNegative || v.isNegativeZero)) :: cs)

/-- An `ENCODE` accepted in any hold phase of any state, with no reset presented afterwards and any commands presented
meanwhile, ends after exactly `59 + |E|` steps (2 for a NaN; the totals of R168), at most 1083 (R82), `BUSY` being 1 at every
step before that; then (R81) a word that is not NaN gives `DONE`, `CAUSE = 0` and `MemRead(0, 64) = ENC(w)`, and a NaN gives
`FAULT`, `CAUSE = 1` and no value in `OUT`. -/
def Obligations.OperationComputesEnc : Prop :=
  ∀ (s : State) (p : PortIn) (rest : List PortIn),
    s.busy = false → s.inputs = p :: rest → p.rst = false → p.start = true → (∀ q ∈ rest, q.rst = false) →
    operationSteps p.operand ≤ 1083 ∧
    (∀ j, 0 < j → j < operationSteps p.operand → ∃ u, Host.Core.run core j s = .next u ∧ u.busy = true) ∧
    ∃ t, Host.Core.run core (operationSteps p.operand) s = .next t ∧ t.busy = false ∧
      t.report = some (enc 0 p.operand) ∧
      (¬ IsNaN p.operand → t.phase = .done ∧ t.cause = .none ∧
        ∃ cs, enc 0 p.operand = .string cs ∧ t.memRead 0 64 = some (cs.map charCode)) ∧
      (IsNaN p.operand → t.phase = .fault ∧ t.cause = .nanOperand ∧ ∀ i, t.out.read i = none)

/-- R67: from every state that meets the invariant, busy or not, the expansion of `encode(v)` ends, and what the host reports is
`ENC` of the word. -/
def Obligations.CallEncodeReportsEnc : Prop :=
  ∀ (s : State) (w : Word), MachineInv s → ∃ t, callEncode w s = .next t ∧ MachineInv t ∧ t.report = some (enc 0 w)
end

