-- ==== Sys2Proof/Laws/Arith.lean ====
section
/-! SUPPORT. The laws of the block's arithmetic: fields and `unpack`, the search, the bias, the initial fraction, the doubling
and `bin`. -/

namespace Sys2Proof.Machine

open Sys2Proof.Safety

/-! ### Fields and `unpack` -/

theorem expField_toNat (w : Word) : (expField w).toNat = w.toNat / 2 ^ 52 % 2 ^ 11 := by
  simp [expField, Nat.shiftRight_eq_div_pow]

theorem mantField_toNat (w : Word) : (mantField w).toNat = w.toNat % 2 ^ 52 := by
  simp [mantField]

theorem expField_lt (w : Word) : (expField w).toNat < 2048 := (expField w).isLt

theorem mantField_lt (w : Word) : (mantField w).toNat < 2 ^ 52 := (mantField w).isLt

/-- `N < 2^2098` for a normal word (R58). -/
theorem normal_units_lt {m b : Nat} (hm : m < 2 ^ 52) (hb : b ≤ 2046) : (2 ^ 52 + m) * 2 ^ (b - 1) < 2 ^ 2098 := by
  have h1 : 2 ^ 52 + m < 2 ^ 53 := by omega
  have h2 : 2 ^ (b - 1) ≤ 2 ^ 2045 := Nat.pow_le_pow_right (by decide) (by omega)
  calc (2 ^ 52 + m) * 2 ^ (b - 1) < 2 ^ 53 * 2 ^ 2045 := Nat.mul_lt_mul_of_lt_of_le h1 h2 (Nat.pow_pos (by decide))
    _ = 2 ^ 2098 := by rw [← Nat.pow_add]

theorem unpack_subnormal {w : Word} (h : (expField w).toNat = 0) :
    unpack w = .num (.fin (signField w) (BitVec.ofNat 2098 (mantField w).toNat)) := by
  simp [unpack, h]

theorem unpack_normal {w : Word} (h1 : (expField w).toNat ≠ 0) (h2 : (expField w).toNat ≤ 2046) :
    unpack w = .num (.fin (signField w)
      (BitVec.ofNat 2098 ((2 ^ 52 + (mantField w).toNat) * 2 ^ ((expField w).toNat - 1)))) := by
  simp only [unpack, if_neg h1, if_pos h2]

theorem unpack_inf {w : Word} (h1 : (expField w).toNat = 2047) (h2 : (mantField w).toNat = 0) :
    unpack w = .num (.inf (signField w)) := by
  simp only [unpack, h1, h2]; rfl

/-- Exactly the NaN words of R59 unpack to NaN. -/
theorem unpack_eq_nan_iff (w : Word) : unpack w = .nan ↔ IsNaN w := by
  have := expField_lt w
  unfold unpack IsNaN
  simp only
  split
  · rename_i h; simp [h]
  · split
    · rename_i h; simp; omega
    · split
      · rename_i h; simp [h]
      · rename_i h1 h2 h3
        simp only [true_iff]
        exact ⟨by omega, h3⟩

/-- The three classes of a word that is not NaN. -/
theorem unpack_num_cases {w : Word} {v : Number} (h : unpack w = .num v) :
    ((expField w).toNat = 0 ∧ v = .fin (signField w) (BitVec.ofNat 2098 (mantField w).toNat)) ∨
    ((expField w).toNat ≠ 0 ∧ (expField w).toNat ≤ 2046 ∧
      v = .fin (signField w) (BitVec.ofNat 2098 ((2 ^ 52 + (mantField w).toNat) * 2 ^ ((expField w).toNat - 1)))) ∨
    ((expField w).toNat = 2047 ∧ (mantField w).toNat = 0 ∧ v = .inf (signField w)) := by
  have hlt := expField_lt w
  by_cases h0 : (expField w).toNat = 0
  · rw [unpack_subnormal h0] at h
    exact .inl ⟨h0, by injection h with h; exact h.symm⟩
  · by_cases h1 : (expField w).toNat ≤ 2046
    · rw [unpack_normal h0 h1] at h
      exact .inr (.inl ⟨h0, h1, by injection h with h; exact h.symm⟩)
    · have h2 : (expField w).toNat = 2047 := by omega
      by_cases h3 : (mantField w).toNat = 0
      · rw [unpack_inf h2 h3] at h
        exact .inr (.inr ⟨h2, h3, by injection h with h; exact h.symm⟩)
      · rw [(unpack_eq_nan_iff w).mpr ⟨h2, h3⟩] at h
        cases h

theorem not_nan_of_num {w : Word} {v : Number} (h : unpack w = .num v) : ¬ IsNaN w := by
  rw [← unpack_eq_nan_iff, h]; simp

theorem num_of_not_nan {w : Word} (h : ¬ IsNaN w) : ∃ v, unpack w = .num v := by
  rw [← unpack_eq_nan_iff] at h
  cases hu : unpack w with
  | num v => exact ⟨v, rfl⟩
  | nan => exact absurd hu h

theorem subnormal_units (w : Word) : (BitVec.ofNat 2098 (mantField w).toNat).toNat = (mantField w).toNat := by
  rw [BitVec.toNat_ofNat, Nat.mod_eq_of_lt]
  exact lt_of_lt_of_le (mantField_lt w) (Nat.pow_le_pow_right (by decide) (by decide))

theorem normal_units {w : Word} (h : (expField w).toNat ≤ 2046) :
    (BitVec.ofNat 2098 ((2 ^ 52 + (mantField w).toNat) * 2 ^ ((expField w).toNat - 1))).toNat =
      (2 ^ 52 + (mantField w).toNat) * 2 ^ ((expField w).toNat - 1) := by
  rw [BitVec.toNat_ofNat, Nat.mod_eq_of_lt (normal_units_lt (mantField_lt w) h)]

/-- The two predicates of R101 together give the sign attribute. -/
theorem sign_fin (s : Bool) (n : BitVec 2098) : (Number.fin s n).sign = s := by
  cases s <;> simp [Number.sign, Number.isNegative, Number.isNegativeZero]
  omega

theorem sign_of_unpack {w : Word} {v : Number} (h : unpack w = .num v) : v.sign = signField w := by
  rcases unpack_num_cases h with ⟨_, rfl⟩ | ⟨_, _, rfl⟩ | ⟨_, _, rfl⟩
  · exact sign_fin _ _
  · exact sign_fin _ _
  · simp [Number.sign, Number.isNegative, Number.isNegativeZero]

/-! ### The search -/

theorem toInt_add_one {e : BitVec 12} (h : e.toInt < 2047) : (e + 1).toInt = e.toInt + 1 := by
  have h1 := BitVec.le_toInt e
  rw [BitVec.toInt_add]
  simp only [BitVec.reduceToInt]
  rw [Int.bmod_def]
  norm_num at h1 ⊢
  omega

theorem toInt_sub_one {e : BitVec 12} (h : -2048 < e.toInt) : (e - 1).toInt = e.toInt - 1 := by
  have h1 := @BitVec.toInt_lt 12 e
  rw [BitVec.toInt_sub]
  simp only [BitVec.reduceToInt]
  rw [Int.bmod_def]
  norm_num at h1 ⊢
  omega

/-- The first test of the search, as a comparison of natural numbers (R105). -/
theorem fracGeOne_fin (n : BitVec 2098) (e : Int) : fracGeOne (.fin n) e = true ↔ 2 ^ (e + 1075).toNat ≤ n.toNat := by
  rw [fracGeOne, decide_eq_true_eq, show e + 1 - Config.magUnitExp = e + 1075 by simp only [Config.magUnitExp]; omega]

/-- The second test of the search, as a comparison of natural numbers (R105). -/
theorem fracNeg_fin (n : BitVec 2098) (e : Int) : fracNeg (.fin n) e = true ↔ n.toNat < 2 ^ (e + 1074).toNat := by
  rw [fracNeg, decide_eq_true_eq, show e - Config.magUnitExp = e + 1074 by simp only [Config.magUnitExp]; omega]

/-- What one iteration of the search can do (R106). -/
theorem searchStep_spec (m : Magnitude) (e : BitVec 12) :
    (fracGeOne m e.toInt = true ∧ e.toInt < 1024 ∧ searchStep m e = some (e + 1)) ∨
    (¬ (fracGeOne m e.toInt = true ∧ e.toInt < 1024) ∧ fracNeg m e.toInt = true ∧ -1023 < e.toInt ∧
      searchStep m e = some (e - 1)) ∨
    (¬ (fracGeOne m e.toInt = true ∧ e.toInt < 1024) ∧ ¬ (fracNeg m e.toInt = true ∧ -1023 < e.toInt) ∧
      searchStep m e = none) := by
  simp only [searchStep, Bool.and_eq_true, decide_eq_true_eq]
  split
  · rename_i h; exact .inl ⟨h.1, h.2, rfl⟩
  · rename_i h
    split
    · rename_i h2; exact .inr (.inl ⟨h, h2.1, h2.2, rfl⟩)
    · rename_i h2; exact .inr (.inr ⟨h, h2, rfl⟩)

/-- The two tests exclude each other. -/
theorem not_fracNeg_of_fracGeOne {m : Magnitude} {e : Int} (h : fracGeOne m e = true) : fracNeg m e = false := by
  cases m with
  | inf => rfl
  | fin n =>
    rw [← Bool.not_eq_true, fracNeg_fin, not_lt]
    rw [fracGeOne_fin] at h
    exact le_trans (Nat.pow_le_pow_right (by decide) (by omega)) h

/-- Which way the fraction of the magnitude of an operand word lies, by the exponent (R107, R114). -/
theorem frac_tests {w : Word} {v : Number} (h : unpack w = .num v) {e : Int} (h1 : -1023 ≤ e) (h2 : e ≤ 1024) :
    (e < exitE w → fracGeOne v.abs e = true) ∧
    (e < 1024 → exitE w ≤ e → fracGeOne v.abs e = false) ∧
    (exitE w < e → fracNeg v.abs e = true ∧ fracGeOne v.abs e = false) ∧
    (exitE w = e → e > -1023 → fracNeg v.abs e = false) := by
  have hm := mantField_lt w
  rcases unpack_num_cases h with ⟨hb, rfl⟩ | ⟨hb0, hb, rfl⟩ | ⟨hb, _, rfl⟩
  · -- zero and subnormal
    have hx : exitE w = -1023 := by simp [exitE, hb]
    simp only [Number.abs, fracGeOne, fracNeg, subnormal_units, Config.magUnitExp, decide_eq_true_eq, decide_eq_false_iff_not, hx]
    have hp : (2 : Nat) ^ 52 ≤ 2 ^ (e + 1 - -1074).toNat := Nat.pow_le_pow_right (by decide) (by omega)
    refine ⟨by omega, fun _ _ => by omega, fun h3 => ⟨?_, by omega⟩, by omega⟩
    have hp : (2 : Nat) ^ 52 ≤ 2 ^ (e - -1074).toNat := Nat.pow_le_pow_right (by decide) (by omega)
    omega
  · -- normal
    have hx : exitE w = (expField w).toNat - 1023 := rfl
    simp only [Number.abs, fracGeOne, fracNeg, normal_units hb, Config.magUnitExp, decide_eq_true_eq, decide_eq_false_iff_not, hx]
    set b := (expField w).toNat
    set m := (mantField w).toNat
    have hlo : 2 ^ (b + 51) ≤ (2 ^ 52 + m) * 2 ^ (b - 1) := by
      rw [show b + 51 = 52 + (b - 1) by omega, Nat.pow_add]
      exact Nat.mul_le_mul_right _ (by omega)
    have hhi : (2 ^ 52 + m) * 2 ^ (b - 1) < 2 ^ (b + 52) := by
      rw [show b + 52 = 53 + (b - 1) by omega, Nat.pow_add]
      exact Nat.mul_lt_mul_of_pos_right (by omega) (Nat.pow_pos (by decide))
    have up : ∀ {i : Nat}, b + 52 ≤ i → (2 ^ 52 + m) * 2 ^ (b - 1) < 2 ^ i := fun hi =>
      lt_of_lt_of_le hhi (Nat.pow_le_pow_right (by decide) hi)
    have down : ∀ {i : Nat}, i ≤ b + 51 → 2 ^ i ≤ (2 ^ 52 + m) * 2 ^ (b - 1) := fun hi =>
      le_trans (Nat.pow_le_pow_right (by decide) hi) hlo
    refine ⟨fun h3 => down (by omega), fun _ h3 => not_le.mpr (up (by omega)),
      fun h3 => ⟨up (by omega), not_le.mpr (up (by omega))⟩, fun h3 _ => not_lt.mpr (down (by omega))⟩
  · -- infinity
    have hx : exitE w = 1024 := by simp [exitE, hb]
    simp only [Number.abs, fracGeOne, fracNeg, hx]
    refine ⟨by simp, fun h3 h4 => by omega, fun h3 => by omega, by simp⟩

theorem exitE_range (w : Word) : -1023 ≤ exitE w ∧ exitE w ≤ 1024 := by
  have := expField_lt w
  simp only [exitE]; omega

/-- Below its exit the search increments. -/
theorem searchStep_up {w : Word} {v : Number} (h : unpack w = .num v) {e : BitVec 12} (h1 : -1023 ≤ e.toInt)
    (h2 : e.toInt < exitE w) : searchStep v.abs e = some (e + 1) := by
  have hr := exitE_range w
  have ht := (frac_tests h h1 (by omega)).1 h2
  have hd : e.toInt < Config.eSearchMax := by simp only [Config.eSearchMax]; omega
  simp [searchStep, ht, hd]

/-- Above its exit the search decrements. -/
theorem searchStep_down {w : Word} {v : Number} (h : unpack w = .num v) {e : BitVec 12} (h1 : e.toInt ≤ 1024)
    (h2 : exitE w < e.toInt) : searchStep v.abs e = some (e - 1) := by
  have hr := exitE_range w
  have ht := (frac_tests h (by omega) h1).2.2.1 h2
  have hd : Config.eSearchMin < e.toInt := by simp only [Config.eSearchMin]; omega
  simp [searchStep, ht.1, ht.2, hd]

/-- At its exit the search leaves `E` alone. -/
theorem searchStep_exit {w : Word} {v : Number} (h : unpack w = .num v) {e : BitVec 12} (h2 : e.toInt = exitE w) :
    searchStep v.abs e = none := by
  have hr := exitE_range w
  obtain ⟨-, t2, -, t4⟩ := frac_tests (e := e.toInt) h (by omega) (by omega)
  have c1 : (fracGeOne v.abs e.toInt && decide (e.toInt < Config.eSearchMax)) = false := by
    by_cases h3 : e.toInt < 1024
    · simp [t2 h3 (by omega)]
    · rw [decide_eq_false (by simp only [Config.eSearchMax]; omega), Bool.and_false]
  have c2 : (fracNeg v.abs e.toInt && decide (Config.eSearchMin < e.toInt)) = false := by
    by_cases h3 : e.toInt > -1023
    · simp [t4 h2.symm h3]
    · rw [decide_eq_false (by simp only [Config.eSearchMin]; omega), Bool.and_false]
  simp [searchStep, c1, c2]

theorem searchLoop_up {w : Word} {v : Number} (h : unpack w = .num v) (n : Nat) (e : BitVec 12) (h1 : -1023 ≤ e.toInt)
    (h2 : e.toInt ≤ exitE w) (h3 : exitE w - e.toInt ≤ n) : (searchLoop v.abs n e).toInt = exitE w := by
  have hr := exitE_range w
  induction n generalizing e with
  | zero => simp only [searchLoop]; omega
  | succ n ih =>
    by_cases h4 : e.toInt = exitE w
    · simp [searchLoop, searchStep_exit h h4, h4]
    · have h5 := toInt_add_one (e := e) (by omega)
      simp only [searchLoop, searchStep_up h h1 (by omega)]
      exact ih _ (by omega) (by omega) (by omega)

theorem searchLoop_down {w : Word} {v : Number} (h : unpack w = .num v) (n : Nat) (e : BitVec 12) (h1 : e.toInt ≤ 1024)
    (h2 : exitE w ≤ e.toInt) (h3 : e.toInt - exitE w ≤ n) : (searchLoop v.abs n e).toInt = exitE w := by
  have hr := exitE_range w
  induction n generalizing e with
  | zero => simp only [searchLoop]; omega
  | succ n ih =>
    by_cases h4 : e.toInt = exitE w
    · simp [searchLoop, searchStep_exit h h4, h4]
    · have h5 := toInt_sub_one (e := e) (by omega)
      simp only [searchLoop, searchStep_down h h1 (by omega)]
      exact ih _ (by omega) (by omega) (by omega)

/-! ### Bias, initial fraction, doubling, `bin` -/

/-- At the exit of the search the biased exponent is field `b` (R114). -/
theorem biasOf_exit {w : Word} {e : BitVec 12} (h : e.toInt = exitE w) (draw : Nat) : biasOf e draw = expField w := by
  have hlt := expField_lt w
  have hv : max Config.bexpClampMin (e.toInt + Config.bias) = ((expField w).toNat : Int) := by
    simp only [Config.bexpClampMin, Config.bias, h, exitE]; omega
  simp only [biasOf, hv]
  rw [if_pos (by omega)]
  apply BitVec.eq_of_toNat_eq
  simp

theorem remOf_lt {x : Nat} (h : x < 2 ^ 52) (draw : Nat) : remOf x draw = BitVec.ofNat 52 x := by
  simp only [remOf, if_pos h]

/-- The initial fraction of an operand word is its mantissa field (R121). -/
theorem selectRem_field {w : Word} {v : Number} (h : unpack w = .num v) (draw : Nat) :
    selectRem v.abs (expField w) draw = mantField w := by
  have hm := mantField_lt w
  rcases unpack_num_cases h with ⟨hb, rfl⟩ | ⟨hb0, hb, rfl⟩ | ⟨hb, hm0, rfl⟩
  · simp only [Number.abs, selectRem, Config.bias, hb, subnormal_units]
    rw [if_pos (by omega), remOf_lt hm]
    simp
  · simp only [Number.abs, selectRem, Config.bias, Config.subnormalScaleExp, normal_units hb]
    rw [if_neg (by omega)]
    have hd : ((expField w).toNat - 1023 - -1022 : Int).toNat = (expField w).toNat - 1 := by omega
    rw [hd, Nat.mul_mod_left, Nat.mul_div_cancel _ (Nat.pow_pos (by decide)), if_pos ⟨rfl, by omega⟩,
      show 2 ^ 52 + (mantField w).toNat - 2 ^ 52 = (mantField w).toNat by omega, remOf_lt hm]
    simp
  · simp only [Number.abs, selectRem]
    apply BitVec.eq_of_toNat_eq
    simp [hm0]

/-- One doubling emits the top bit and shifts (R122). -/
theorem double_eq (r : BitVec 52) : double r = (r.getLsbD 51, r <<< 1) := by
  have h := r.isLt
  have ht : r.getLsbD 51 = decide (2 ^ 51 ≤ r.toNat) := by
    rw [← BitVec.msb_eq_getLsbD_last (x := r), BitVec.msb_eq_decide]
  simp only [double]
  split
  · rename_i h1
    refine Prod.ext ?_ ?_
    · rw [ht, eq_comm, decide_eq_true_eq]; omega
    · apply BitVec.eq_of_toNat_eq
      simp [Nat.shiftLeft_eq]; omega
  · rename_i h1
    refine Prod.ext ?_ ?_
    · rw [ht, eq_comm, decide_eq_false_iff_not]; omega
    · apply BitVec.eq_of_toNat_eq
      simp [Nat.shiftLeft_eq]; omega

/-- Doubling the field shifted by `k` gives the field shifted by `k + 1` (R123). -/
theorem double_shiftLeft_rem (x : BitVec 52) (k : Nat) : (double (x <<< k)).2 = x <<< (k + 1) := by
  rw [double_eq, ← BitVec.shiftLeft_add]

/-- The character that doubling the field shifted by `k` emits (R124). -/
theorem double_shiftLeft_char (x : BitVec 52) (k : Nat) (h : k < 52) : (double (x <<< k)).1 = x.getLsbD (51 - k) := by
  rw [double_eq, BitVec.getLsbD_shiftLeft]
  have h1 : ¬ 51 < k := by omega
  simp [h1]

/-- Every character is read back from its code (R52). -/
@[simp] theorem charOfCode_charCode (c : Chr) : charOfCode (charCode c) = some c := by cases c <;> rfl

/-- A digit of `bin` is a bit. -/
theorem bin_getElem (n w j : Nat) (h : j < w) : (bin n w)[j] = n.testBit (w - 1 - j) := by
  simp [bin, Nat.testBit_eq_decide_div_mod_eq]

/-- `bin` of a bit vector at its own width spells its bits. -/
theorem bin_toNat_getElem {w : Nat} (x : BitVec w) (j : Nat) (h : j < w) : (bin x.toNat w)[j] = x.getLsbD (w - 1 - j) := by
  rw [bin_getElem _ _ _ h]; rfl

end Sys2Proof.Machine
end

