-- ==== Sys2Proof/Laws/Decode.lean ====
section
/-! SUPPORT. The laws of the word layout: bytes and numbers, widths, and the codes. -/

namespace Sys2Proof

/-- A raw word fits exactly when its number is below the format's power of two. -/
theorem RawWord.fits_iff (r : RawWord) : r.fits = true ↔ r.bits < 2 ^ r.format.width := by
  simp [RawWord.fits]

/-- The bytes of a number spell it, when they are enough. -/
theorem natOfBytes_bytesOfNat (n w : Nat) (h : w < 256 ^ n) : natOfBytes (bytesOfNat n w) = w := by
  induction n generalizing w with
  | zero =>
    simp at h
    simp [bytesOfNat, natOfBytes, h]
  | succ n ih =>
    rw [Nat.pow_succ] at h
    simp only [bytesOfNat, natOfBytes]
    rw [ih _ (by omega), BitVec.toNat_ofNat]
    omega

@[simp] theorem bytesOfNat_length (n w : Nat) : (bytesOfNat n w).length = n := by
  induction n generalizing w with
  | zero => rfl
  | succ n ih => simp [bytesOfNat, ih]

/-- The code of a phase names it back. -/
theorem phaseOfCode_code (p : Phase) : phaseOfCode p.code = some p := by cases p <;> rfl

/-- Different phases have different codes (R61). -/
theorem code_injective {p q : Phase} (h : p.code = q.code) : p = q := by
  have := congrArg phaseOfCode h
  simpa [phaseOfCode_code] using this

end Sys2Proof
end

