-- ==== Sys2Proof/Laws/Memory.lean ====
section
/-! SUPPORT. The laws of the cells of `OUT`: read after write, and that every write keeps the canonical form;
and what the port shows of a cell. -/

namespace Sys2Proof.Machine

namespace Memory

/-- The canonical form, as a statement about the cells. -/
theorem wf_iff (m : Memory) : m.wf = true ↔ (m.map Prod.fst).Pairwise (· < ·) ∧ ∀ c ∈ m, c.1 < 64 := by
  simp [Memory.wf]

@[simp] theorem wf_nil : Memory.wf [] = true := by simp [wf_iff]

@[simp] theorem read_nil (i : Nat) : Memory.read [] i = none := rfl

/-- Reading the written cell gives the written character. -/
theorem read_write_same (m : Memory) (i : Nat) (v : Chr) : (m.write i v).read i = some v := by
  induction m with
  | nil => simp [write, read]
  | cons c m ih =>
    obtain ⟨a, b⟩ := c
    simp only [write]
    split
    · simp [read]
    · split
      · simp [read]
      · rename_i h1 h2
        simp [read, ih, Ne.symm h2]

/-- A write leaves every other cell alone. -/
theorem read_write_other (m : Memory) {i j : Nat} (v : Chr) (h : j ≠ i) : (m.write i v).read j = m.read j := by
  induction m with
  | nil => simp [write, read, Ne.symm h]
  | cons c m ih =>
    obtain ⟨a, b⟩ := c
    simp only [write]
    split
    · simp [read, Ne.symm h]
    · split
      · rename_i h1 h2
        subst h2
        simp [read, Ne.symm h]
      · simp [read, ih]

/-- The indexes listed after a write: those before and the written one. -/
theorem mem_write {m : Memory} {i : Nat} {v : Chr} {c : Nat × Chr} (h : c ∈ m.write i v) : c = (i, v) ∨ c ∈ m := by
  induction m with
  | nil => simpa [write] using h
  | cons d m ih =>
    obtain ⟨a, b⟩ := d
    simp only [write] at h
    split at h
    · simpa using h
    · split at h
      · rcases List.mem_cons.mp h with h | h
        · exact .inl h
        · exact .inr (List.mem_cons_of_mem _ h)
      · rcases List.mem_cons.mp h with h | h
        · exact .inr (by simp [h])
        · rcases ih h with h | h
          · exact .inl h
          · exact .inr (List.mem_cons_of_mem _ h)

theorem pairwise_write (m : Memory) (i : Nat) (v : Chr) (h : (m.map Prod.fst).Pairwise (· < ·)) :
    ((m.write i v).map Prod.fst).Pairwise (· < ·) := by
  induction m with
  | nil => simp [write]
  | cons d m ih =>
    obtain ⟨a, b⟩ := d
    simp only [List.map_cons, List.pairwise_cons] at h
    simp only [write]
    split
    · rename_i hi
      simp only [List.map_cons, List.pairwise_cons, List.mem_cons, forall_eq_or_imp]
      exact ⟨⟨hi, fun x hx => lt_trans hi (h.1 x hx)⟩, h⟩
    · split
      · rename_i hi
        subst hi
        simpa [List.pairwise_cons] using h
      · simp only [List.map_cons, List.pairwise_cons]
        refine ⟨fun x hx => ?_, ih h.2⟩
        obtain ⟨c, hc, rfl⟩ := List.mem_map.mp hx
        rcases mem_write hc with rfl | hc
        · show a < i
          omega
        · exact h.1 _ (List.mem_map_of_mem hc)

/-- A write of an existing cell keeps the canonical form. -/
theorem wf_write {m : Memory} {i : Nat} (v : Chr) (h : m.wf = true) (hi : i < 64) : (m.write i v).wf = true := by
  rw [wf_iff] at h ⊢
  refine ⟨pairwise_write m i v h.1, fun c hc => ?_⟩
  rcases mem_write hc with rfl | hc
  · exact hi
  · exact h.2 c hc

/-- `MemWrite` keeps the canonical form (R44). -/
theorem wf_writeString (vs : List Chr) {m : Memory} {i : Nat} (h : m.wf = true) (hi : i + vs.length ≤ 64) :
    (m.writeString i vs).wf = true := by
  induction vs generalizing m i with
  | nil => exact h
  | cons v vs ih =>
    simp only [List.length_cons] at hi
    exact ih (wf_write v h (by omega)) (by omega)

/-- Cells outside those `MemWrite` covers read as before. -/
theorem read_writeString_outside (vs : List Chr) (m : Memory) {i a : Nat} (h : a < i ∨ i + vs.length ≤ a) :
    (m.writeString i vs).read a = m.read a := by
  induction vs generalizing m i with
  | nil => rfl
  | cons v vs ih =>
    simp only [List.length_cons] at h
    simp only [writeString]
    rw [ih _ (by omega), read_write_other _ _ (by omega)]

/-- The cells `MemWrite` covers read as the string. -/
theorem read_writeString_inside (vs : List Chr) (m : Memory) (i j : Nat) (h : j < vs.length) :
    (m.writeString i vs).read (i + j) = some (vs[j]) := by
  induction vs generalizing m i j with
  | nil => simp at h
  | cons v vs ih =>
    cases j with
    | zero =>
      simp only [writeString, Nat.add_zero, List.getElem_cons_zero]
      rw [read_writeString_outside _ _ (by omega), read_write_same]
    | succ j =>
      simp only [List.length_cons] at h
      have := ih (m.write i v) (i + 1) j (by omega)
      simpa [writeString, Nat.add_assoc, Nat.add_comm 1 j] using this

end Memory

/-- While `VALID = 1` the port shows the code of the character in the cell (R43, R52). -/
theorem readCell_of_read {s : State} {i : Nat} {c : Chr} (hv : s.valid = true) (h : s.out.read i = some c) :
    s.readCell i = charCode c := by
  simp [State.readCell, hv, h]

/-- While `VALID = 0` the port shows a free byte (R47). -/
theorem readCell_of_not_valid {s : State} (hv : s.valid = false) (i : Nat) : s.readCell i = Config.freeRead s.draw i := by
  simp [State.readCell, hv]

end Sys2Proof.Machine
end

