-- ==== Sys2Proof/Laws/PerInstr.lean ====
section
/-! SUPPORT. A statement about each instruction as syntax: its encoding is a well-formed raw word of its own format, and the term
itself is well formed (R60, R61, R64). -/

namespace Sys2Proof.Laws.EncodesWellFormed

/-- The instruction is well formed, and so is its encoding, in the instruction's own format. -/
def Statement (i : Instr) : Prop := i.wf = true ∧ (encode i).wf = true ∧ (encode i).format = i.format

theorem nop (w : Word) : Statement (.nop w) := by
  have h := w.isLt
  refine ⟨rfl, ?_, rfl⟩
  rw [RawWord.wf, (RawWord.fits_iff _).mpr (show w.toNat < 2 ^ 65 by omega)]
  rfl

theorem encode (w : Word) : Statement (.encode w) := by
  have h := w.isLt
  refine ⟨rfl, ?_, rfl⟩
  rw [RawWord.wf, (RawWord.fits_iff _).mpr (show 2 ^ 64 + w.toNat < 2 ^ 65 by omega)]
  rfl

theorem idle : Statement .idle := ⟨rfl, rfl, rfl⟩
theorem sign : Statement .sign := ⟨rfl, rfl, rfl⟩
theorem exps : Statement .exps := ⟨rfl, rfl, rfl⟩
theorem bias : Statement .bias := ⟨rfl, rfl, rfl⟩
theorem expe : Statement .expe := ⟨rfl, rfl, rfl⟩
theorem msel : Statement .msel := ⟨rfl, rfl, rfl⟩
theorem mext : Statement .mext := ⟨rfl, rfl, rfl⟩
theorem asm : Statement .asm := ⟨rfl, rfl, rfl⟩
theorem done : Statement .done := ⟨rfl, rfl, rfl⟩
theorem fault : Statement .fault := ⟨rfl, rfl, rfl⟩

end Sys2Proof.Laws.EncodesWellFormed
end

