-- ==== Sys2Proof/Laws/State.lean ====
section
/-! SUPPORT. One lemma for each field of each shared update of the state, true by unfolding, so that no later proof unfolds a
record update. -/

namespace Sys2Proof.Machine

@[simp] theorem accept_phase (w : Word) (s : State) : (accept w s).phase = .sign := rfl
@[simp] theorem accept_cause (w : Word) (s : State) : (accept w s).cause = .none := rfl
@[simp] theorem accept_opd (w : Word) (s : State) : (accept w s).opd = .now w := rfl
@[simp] theorem accept_sbit (w : Word) (s : State) : (accept w s).sbit = s.sbit := rfl
@[simp] theorem accept_mag (w : Word) (s : State) : (accept w s).mag = s.mag := rfl
@[simp] theorem accept_e (w : Word) (s : State) : (accept w s).e = s.e := rfl
@[simp] theorem accept_bexp (w : Word) (s : State) : (accept w s).bexp = s.bexp := rfl
@[simp] theorem accept_xstr (w : Word) (s : State) : (accept w s).xstr = s.xstr := rfl
@[simp] theorem accept_rem (w : Word) (s : State) : (accept w s).rem = s.rem := rfl
@[simp] theorem accept_mstr (w : Word) (s : State) : (accept w s).mstr = s.mstr := rfl
@[simp] theorem accept_k (w : Word) (s : State) : (accept w s).k = s.k := rfl
@[simp] theorem accept_out (w : Word) (s : State) : (accept w s).out = [] := rfl
@[simp] theorem accept_inputs (w : Word) (s : State) : (accept w s).inputs = s.inputs := rfl
@[simp] theorem accept_draw (w : Word) (s : State) : (accept w s).draw = s.draw + 1 := rfl

@[simp] theorem raiseFault_phase (c : Cause) (s : State) : (raiseFault c s).phase = .fault := rfl
@[simp] theorem raiseFault_cause (c : Cause) (s : State) : (raiseFault c s).cause = c := rfl
@[simp] theorem raiseFault_opd (c : Cause) (s : State) : (raiseFault c s).opd = s.opd := rfl
@[simp] theorem raiseFault_sbit (c : Cause) (s : State) : (raiseFault c s).sbit = s.sbit := rfl
@[simp] theorem raiseFault_mag (c : Cause) (s : State) : (raiseFault c s).mag = s.mag := rfl
@[simp] theorem raiseFault_e (c : Cause) (s : State) : (raiseFault c s).e = s.e := rfl
@[simp] theorem raiseFault_bexp (c : Cause) (s : State) : (raiseFault c s).bexp = s.bexp := rfl
@[simp] theorem raiseFault_xstr (c : Cause) (s : State) : (raiseFault c s).xstr = s.xstr := rfl
@[simp] theorem raiseFault_rem (c : Cause) (s : State) : (raiseFault c s).rem = s.rem := rfl
@[simp] theorem raiseFault_mstr (c : Cause) (s : State) : (raiseFault c s).mstr = s.mstr := rfl
@[simp] theorem raiseFault_k (c : Cause) (s : State) : (raiseFault c s).k = s.k := rfl
@[simp] theorem raiseFault_out (c : Cause) (s : State) : (raiseFault c s).out = s.out := rfl
@[simp] theorem raiseFault_inputs (c : Cause) (s : State) : (raiseFault c s).inputs = s.inputs := rfl
@[simp] theorem raiseFault_draw (c : Cause) (s : State) : (raiseFault c s).draw = s.draw := rfl

@[simp] theorem consume_phase (s : State) : (s.consume).phase = s.phase := rfl
@[simp] theorem consume_cause (s : State) : (s.consume).cause = s.cause := rfl
@[simp] theorem consume_opd (s : State) : (s.consume).opd = s.opd := rfl
@[simp] theorem consume_sbit (s : State) : (s.consume).sbit = s.sbit := rfl
@[simp] theorem consume_mag (s : State) : (s.consume).mag = s.mag := rfl
@[simp] theorem consume_e (s : State) : (s.consume).e = s.e := rfl
@[simp] theorem consume_bexp (s : State) : (s.consume).bexp = s.bexp := rfl
@[simp] theorem consume_xstr (s : State) : (s.consume).xstr = s.xstr := rfl
@[simp] theorem consume_rem (s : State) : (s.consume).rem = s.rem := rfl
@[simp] theorem consume_mstr (s : State) : (s.consume).mstr = s.mstr := rfl
@[simp] theorem consume_k (s : State) : (s.consume).k = s.k := rfl
@[simp] theorem consume_out (s : State) : (s.consume).out = s.out := rfl
@[simp] theorem consume_inputs (s : State) : (s.consume).inputs = s.inputs.tail := rfl
@[simp] theorem consume_draw (s : State) : (s.consume).draw = s.draw := rfl

@[simp] theorem afterReset_phase (s : State) : (afterReset s).phase = State.reset.phase := rfl
@[simp] theorem afterReset_cause (s : State) : (afterReset s).cause = State.reset.cause := rfl
@[simp] theorem afterReset_opd (s : State) : (afterReset s).opd = State.reset.opd := rfl
@[simp] theorem afterReset_sbit (s : State) : (afterReset s).sbit = State.reset.sbit := rfl
@[simp] theorem afterReset_mag (s : State) : (afterReset s).mag = State.reset.mag := rfl
@[simp] theorem afterReset_e (s : State) : (afterReset s).e = State.reset.e := rfl
@[simp] theorem afterReset_bexp (s : State) : (afterReset s).bexp = State.reset.bexp := rfl
@[simp] theorem afterReset_xstr (s : State) : (afterReset s).xstr = State.reset.xstr := rfl
@[simp] theorem afterReset_rem (s : State) : (afterReset s).rem = State.reset.rem := rfl
@[simp] theorem afterReset_mstr (s : State) : (afterReset s).mstr = State.reset.mstr := rfl
@[simp] theorem afterReset_k (s : State) : (afterReset s).k = State.reset.k := rfl
@[simp] theorem afterReset_out (s : State) : (afterReset s).out = State.reset.out := rfl
@[simp] theorem afterReset_inputs (s : State) : (afterReset s).inputs = s.inputs.tail := rfl
@[simp] theorem afterReset_draw (s : State) : (afterReset s).draw = s.draw + 1 := rfl

@[simp] theorem reg_now_val {α : Type} (v : α) : (Reg.now v).val = v := rfl
@[simp] theorem reg_now_held {α : Type} (v : α) : (Reg.now v).held = true := rfl
@[simp] theorem reg_empty_val {α : Type} (v : α) : (Reg.empty v).val = v := rfl
@[simp] theorem reg_empty_held {α : Type} (v : α) : (Reg.empty v).held = false := rfl

/-- `BUSY` is 0 exactly in the hold phases (R17, R31). -/
theorem busy_eq_not_hold (s : State) : s.busy = !holdPhase s.phase := by
  unfold State.busy holdPhase; cases s.phase <;> rfl

theorem hold_of_not_busy {s : State} (h : s.busy = false) : s.phase = .idle ∨ s.phase = .done ∨ s.phase = .fault := by
  unfold State.busy at h; revert h; cases s.phase <;> simp

end Sys2Proof.Machine
end

