-- ==== Sys2Proof/Laws/Step.lean ====
section
/-! SUPPORT. What a step is in each kind of phase, and what each shared operation can do, said once for the later proofs. -/

namespace Sys2Proof.Machine

/-- The decoder reads a phase's own code as its micro-operation. -/
@[simp] theorem decodePhase_code (p : Phase) : decodePhase p.code = .ok p.instr := by cases p <;> rfl

@[simp] theorem andThen_next (s : State) (f : State → Host.Outcome State Fault Refusal) : andThen (.next s) f = f s := rfl

/-- `andThen` answers a next state only through one. -/
theorem andThen_eq_next {o : Host.Outcome State Fault Refusal} {f : State → Host.Outcome State Fault Refusal} {t : State}
    (h : andThen o f = .next t) : ∃ u, o = .next u ∧ f u = .next t := by
  cases o with
  | next u => exact ⟨u, rfl, h⟩
  | fault r => cases h
  | refused r => cases h

/-- The command decoder reads the ports back. -/
theorem decodeCommand_command (p : PortIn) :
    decodeCommand p.command = if p.start then .encode p.operand else .nop p.operand := by
  have h1 : p.command.getLsbD 64 = p.start := by
    show (BitVec.ofBool p.start ++ p.operand).getLsbD 64 = p.start
    rw [BitVec.getLsbD_append]
    simp
  have h2 : p.command.setWidth 64 = p.operand := by
    apply BitVec.eq_of_getLsbD_eq
    intro i hi
    rw [BitVec.getLsbD_setWidth]
    show (decide (i < 64) && (BitVec.ofBool p.start ++ p.operand).getLsbD i) = _
    rw [BitVec.getLsbD_append]
    simp [hi]
  simp only [decodeCommand, h1, h2]

/-- A step with `rst = 1`. -/
theorem step_of_rst {s : State} (h : s.port.rst = true) : step s = .next (afterReset s) := by
  simp [step, stepOnce, h]

/-- A step with `rst = 0`: the command, then the micro-operation. -/
theorem step_of_run {s : State} (h : s.port.rst = false) :
    step s = andThen (exec (decodeCommand s.port.command) s.consume) (exec s.phase.instr) := by
  simp [step, stepOnce, h, State.microOp]

@[simp] theorem consume_busy (s : State) : s.consume.busy = s.busy := rfl
@[simp] theorem consume_valid (s : State) : s.consume.valid = s.valid := rfl

/-- A command presented while `BUSY = 1` is dropped (R163). -/
theorem exec_command_of_busy {s : State} (h : s.busy = true) (p : PortIn) : exec (decodeCommand p.command) s = .next s := by
  rw [decodeCommand_command]
  split
  · show execEncode p.operand s = _
    simp [execEncode, h]
  · rfl

/-- A hold phase's micro-operation writes nothing (R131 to R133). -/
theorem exec_hold {p : Phase} (h : holdPhase p = true) (s : State) : exec p.instr s = .next s := by
  cases p <;> first | rfl | cases h

/-- A step in a busy phase with `rst = 0` is the micro-operation. -/
theorem step_of_busy {s : State} (h : s.port.rst = false) (hb : s.busy = true) :
    step s = exec s.phase.instr s.consume := by
  rw [step_of_run h, exec_command_of_busy (by simpa using hb)]; rfl

/-- A step in a hold phase with `rst = 0` accepts the command presented, or leaves the state. -/
theorem step_of_hold {s : State} (h : s.port.rst = false) (hb : s.busy = false) :
    step s = .next (if s.port.start then accept s.port.operand s.consume else s.consume) := by
  have hh : holdPhase s.phase = true := by
    have := busy_eq_not_hold s
    rw [hb] at this
    simpa using this.symm
  rw [step_of_run h, decodeCommand_command]
  cases hs : s.port.start
  · show andThen (execNop s.port.operand s.consume) (exec s.phase.instr) = _
    simp [execNop, exec_hold hh]
  · show andThen (execEncode s.port.operand s.consume) (exec s.phase.instr) = _
    simp [execEncode, hb, exec_hold hh]

/-- Everything a step can do: reset, an accepted command, nothing in a hold phase, or the micro-operation of a busy phase. -/
theorem step_cases {s t : State} (h : step s = .next t) :
    (s.port.rst = true ∧ t = afterReset s) ∨
    (s.port.rst = false ∧ s.busy = false ∧ s.port.start = true ∧ t = accept s.port.operand s.consume) ∨
    (s.port.rst = false ∧ s.busy = false ∧ s.port.start = false ∧ t = s.consume) ∨
    (s.port.rst = false ∧ s.busy = true ∧ exec s.phase.instr s.consume = .next t) := by
  cases hr : s.port.rst
  · cases hb : s.busy
    · rw [step_of_hold hr hb] at h
      cases hs : s.port.start <;> simp [hs] at h <;> simp [h]
    · rw [step_of_busy hr hb] at h
      simp [h]
  · rw [step_of_rst hr] at h
    injection h with h
    simp [h]

end Sys2Proof.Machine
end

