-- ==== Sys2Proof/Laws/Run.lean ====
section
/-! SUPPORT. Running several steps: one step of a run at a time, and a run of a host that presents no reset. -/

namespace Sys2Proof.Machine

/-- A run of one more step, over any machine. -/
theorem run_succ_of_step (M : Host.Core) {s t : M.State} {k : Nat} (h : M.step s = .next t) :
    Host.Core.run M (k + 1) s = Host.Core.run M k t := by
  simp only [Host.Core.run, h]

/-- A run of this machine, one step at a time. -/
theorem run_succ {s t : State} (k : Nat) (h : step s = .next t) :
    Host.Core.run core (k + 1) s = Host.Core.run core k t := run_succ_of_step core h

/-- Where no input to come is a reset, neither is the present one. -/
theorem port_rst_of_inputs {s : State} (h : ∀ q ∈ s.inputs, q.rst = false) : s.port.rst = false := by
  unfold State.port
  cases hi : s.inputs with
  | nil => rfl
  | cons p r => exact h p (by simp [hi])

end Sys2Proof.Machine
end

