-- ==== Sys2Proof/Tests/Slice0.lean ====
section
/-! SUPPORT. The model's own tests: ill-formed words, decoding of words written out from the spec's code tables, single steps
with the outcomes of spec/95_test_vectors.md (the row is named in each name), and witnesses that meet the hypotheses of the
statements. -/

namespace Sys2Proof.Tests

open Sys2Proof.Machine Sys2Proof.Safety

/-- A test of the next state; a stop fails it. -/
def after (o : Host.Outcome State Fault Refusal) (p : State → Bool) : Bool :=
  match o with
  | .next t => p t
  | .fault _ => false
  | .refused _ => false

/-- A magnitude of `m * 2^k` units of 2^-1074. -/
def mag (m k : Nat) : Magnitude := .fin (BitVec.ofNat 2098 (m * 2 ^ k))

/-! ### Ill-formed words -/

theorem test_wf_command_too_wide : (RawWord.mk .cmd (2 ^ 65)).wf = false := by decide
theorem test_wf_phase_too_wide : (RawWord.mk .phase 16).wf = false := by decide
theorem test_wf_phase_reserved : (RawWord.mk .phase 10).wf = false ∧ (RawWord.mk .phase 15).wf = false := by decide
theorem test_wf_last_assigned : (RawWord.mk .phase 9).wf = true ∧ (RawWord.mk .cmd (2 ^ 65 - 1)).wf = true := by decide

theorem test_decode_command_too_wide : decodeTableWord 72 (2 ^ 65) = none := by decide
theorem test_decode_phase_too_wide : decodeTableWord 8 16 = none := by decide
theorem test_decode_phase_reserved :
    ((List.range 6).all fun i => decide (decodeTableWord 4 (10 + i) = none)) = true := by decide
theorem test_decode_no_such_width : decodeTableWord 80 0 = none ∧ decodeTableWord 0 0 = none := by decide
theorem test_decode_wrong_length : (decodeBytes [1, 0]).toOption = none := by decide

/-! ### Words written out from the code tables (R60, R61) -/

theorem test_decode_nop : decodeTableWord 65
    0b0_0000000000000000000000000000000000000000000000000000000000000101 = some (.nop 5) := by decide
theorem test_decode_encode : decodeTableWord 65
    0b1_1100000000000100000000000000000000000000000000000000000000000000 = some (.encode 0xC004000000000000) := by decide
theorem test_decode_idle : decodeTableWord 4 0b0000 = some .idle := by decide
theorem test_decode_sign : decodeTableWord 4 0b0001 = some .sign := by decide
theorem test_decode_exps : decodeTableWord 4 0b0010 = some .exps := by decide
theorem test_decode_bias : decodeTableWord 4 0b0011 = some .bias := by decide
theorem test_decode_expe : decodeTableWord 4 0b0100 = some .expe := by decide
theorem test_decode_msel : decodeTableWord 4 0b0101 = some .msel := by decide
theorem test_decode_mext : decodeTableWord 4 0b0110 = some .mext := by decide
theorem test_decode_asm : decodeTableWord 4 0b0111 = some .asm := by decide
theorem test_decode_done : decodeTableWord 4 0b1000 = some .done := by decide
theorem test_decode_fault : decodeTableWord 4 0b1001 = some .fault := by decide

/-- `start` is the last bit of the nine bytes (entry 9). -/
theorem test_decode_bytes_encode :
    (decodeBytes [0, 0, 0, 0, 0, 0, 0xF0, 0x3F, 1]).toOption = some (.encode 0x3FF0000000000000) := by decide

/-! ### Placing a word and running it -/

theorem test_fetch_encode : after (step (State.reset.withFetchWord 65 0x13FF0000000000000)) (fun t =>
    decide (t.phase = .sign) && decide (t.opd = .now 0x3FF0000000000000)) = true := by decide
theorem test_fetch_sign : after (step (State.reset.withFetchWord 4 1)) (fun t => decide (t.phase = .exps)) = true := by
  decide +kernel

/-! ### One step at a time -/

theorem test_nop_CM5 : after (step { State.reset with
    phase := .done, out := [(0, false)], inputs := [⟨false, false, 7, 0⟩] }) (fun t =>
    decide (t.phase = .done) && decide (t.out = [(0, false)])) = true := by decide

theorem test_encode_CM2 : after (step { State.reset with
    phase := .done, e := .now 1, out := [(0, false)], inputs := [⟨false, true, 0xC004000000000000, 0⟩] }) (fun t =>
    decide (t.opd = .now 0xC004000000000000) && decide (t.e = .now 1) && decide (t.out = []) && t.busy && !t.valid) = true := by
  decide
theorem test_encode_CM3 : after (step { State.reset with
    phase := .fault, cause := .nanOperand, inputs := [⟨false, true, 0x4000000000000000, 0⟩] }) (fun t =>
    decide (t.phase = .sign) && decide (t.cause = .none)) = true := by decide

theorem test_idle_CM4 : after (step State.reset) (fun t => decide (t = State.reset)) = true := by decide +kernel
theorem test_done_CM5 : after (exec .done { State.reset with phase := .done }) (fun t => t.valid) = true := by decide
theorem test_fault_hold : after (step { State.reset with phase := .fault, cause := .nanOperand }) (fun t =>
    t.faulted && decide (t.cause = .nanOperand)) = true := by decide

theorem test_sign_SG4 : after (exec .sign { State.reset with opd := .now 0x8000000000000000 }) (fun t =>
    decide (t.sbit = .now true) && decide (t.mag = .now (mag 0 0)) && decide (t.phase = .exps)) = true := by decide +kernel
theorem test_sign_SG8 : after (exec .sign { State.reset with opd := .now 0xC004000000000000, e := .now 9 }) (fun t =>
    decide (t.sbit = .now true) && decide (t.mag = .now (mag 5 1073)) && decide (t.e = .now 0)) = true := by decide +kernel
theorem test_sign_SG9 : after (exec .sign { State.reset with opd := .now 0x7FF8000000000000 }) (fun t =>
    t.faulted && decide (t.cause = .nanOperand) && !t.sbit.held && !t.mag.held && !t.e.held) = true := by decide +kernel

theorem test_exps_XS4 : after (exec .exps { State.reset with
    phase := .exps, mag := .now (mag 1 1075), e := .now 0 }) (fun t =>
    decide (t.e = .now 1) && decide (t.phase = .exps)) = true := by decide +kernel
theorem test_exps_XS12 : after (exec .exps { State.reset with
    phase := .exps, mag := .now (mag 1 0), e := .now (-1023) }) (fun t =>
    decide (t.e = .now (-1023)) && decide (t.phase = .bias)) = true := by decide +kernel

theorem test_bias_BI1 : after (exec .bias { State.reset with e := .now (-1023) }) (fun t =>
    decide (t.bexp = .now 0) && decide (t.phase = .expe)) = true := by decide
theorem test_bias_BI8 : after (exec .bias { State.reset with e := .now 1024 }) (fun t =>
    decide (t.bexp = .now 2047)) = true := by decide

theorem test_expe_XE3 : after (exec .expe { State.reset with bexp := .now 1019 }) (fun t =>
    decide (t.xstr.val.toList = [false, true, true, true, true, true, true, true, false, true, true]) &&
    decide (t.phase = .msel)) = true := by decide
/-- `bin(2049, 11)`: the digit of weight 2^11 is dropped. -/
theorem test_bin_low_digits : (bin 2049 11).toList = List.replicate 10 false ++ [true] := by decide

theorem test_msel_MS3 : after (exec .msel { State.reset with
    mag := .now (mag 5 1073), bexp := .now 1024, mstr := .replicate 52 (.now true) }) (fun t =>
    decide (t.rem = .now 0x4000000000000) && decide (t.k = .now 0) && !(t.mstr[51]).held && decide (t.phase = .mext)) = true := by
  decide +kernel
theorem test_msel_MS9 : after (exec .msel { State.reset with mag := .now (mag 1 52), bexp := .now 1 }) (fun t =>
    decide (t.rem = .now 0)) = true := by decide +kernel

theorem test_mext_DB5 : after (exec .mext { State.reset with phase := .mext, rem := .now 0x999999999999A, k := .now 0 })
    (fun t => decide (t.mstr[0] = .now true) && decide (t.rem = .now 0x3333333333334) && decide (t.k = .now 1) &&
      decide (t.phase = .mext)) = true := by decide
theorem test_mext_DB7 : after (exec .mext { State.reset with phase := .mext, rem := .now 0x8000000000000, k := .now 51 })
    (fun t => decide (t.mstr[51] = .now true) && decide (t.rem = .now 0) && decide (t.k = .now 52) &&
      decide (t.phase = .asm)) = true := by decide

/-- The state of AS2. -/
def asm2 : State := { State.reset with
  phase := .asm, sbit := .now true, xstr := .now (bin 1024 11),
  mstr := (Vector.replicate 52 (.now false)).set 1 (.now true) }

theorem test_asm_AS2 : after (exec .asm asm2) (fun t =>
    decide ([0, 1, 2, 11, 12, 13, 63].map t.readCell = [0x31, 0x31, 0x30, 0x30, 0x30, 0x31, 0x30]) && t.valid) = true := by
  decide
theorem test_asm_HZ3 : after (step { asm2 with inputs := [⟨false, true, 0, 0⟩] }) (fun t =>
    decide (t.phase = .done) && decide (t.opd = asm2.opd)) = true := by decide

theorem test_reset_HZ4 : after (step { State.reset with
    phase := .exps, e := .now 497, mag := .now .inf, inputs := [⟨true, true, 0x3FF0000000000000, 0⟩] }) (fun t =>
    decide (t.phase = .idle) && decide (t.cause = .none) && !t.e.held && !t.mag.held && !t.opd.held) = true := by decide
theorem test_busy_HZ1 : after (step { State.reset with
    phase := .exps, opd := .now 0x3FF8000000000000, mag := .now (mag 3 1073), e := .now 0,
    inputs := [⟨false, true, 0x4008000000000000, 0⟩] }) (fun t =>
    decide (t.opd = .now 0x3FF8000000000000) && decide (t.phase = .bias) && decide (t.e = .now 0)) = true := by
  decide +kernel

theorem test_text : instrText (.encode 0x3FF00000000000AF) = "ENCODE 0x3FF00000000000AF" := by decide

/-! ### States that meet the invariant -/

/-- The word of -∞, of the least subnormal and of a NaN. -/
abbrev negInf : Word := 0xFFF0000000000000
abbrev least : Word := 0x0000000000000001
abbrev nanWord : Word := 0x7FF0000000000001

theorem unpack_negInf : unpack negInf = .num (.inf true) := by decide +kernel
theorem unpack_least : unpack least = .num (.fin false 1) := by decide +kernel
theorem unpack_nanWord : unpack nanWord = .nan := by decide +kernel

/-- After acceptance of a word. -/
def inSign (w : Word) : State := { State.reset with phase := .sign, opd := .now w, draw := 1 }
/-- In the search, at exponent `e`. -/
def inExps (w : Word) (v : Number) (e : BitVec 12) : State :=
  { inSign w with phase := .exps, sbit := .now v.sign, mag := .now v.abs, e := .now e }
def inBias (w : Word) (v : Number) (e : BitVec 12) : State := { inExps w v e with phase := .bias }
def inExpe (w : Word) (v : Number) (e : BitVec 12) : State :=
  { inExps w v e with phase := .expe, bexp := .now (expField w) }
def inMsel (w : Word) (v : Number) (e : BitVec 12) : State :=
  { inExpe w v e with phase := .msel, xstr := .now (bin (expField w).toNat 11) }
/-- In the doubling, with `k` characters emitted. -/
def inMext (w : Word) (v : Number) (e : BitVec 12) (k : BitVec 6) : State :=
  { inMsel w v e with
    phase := .mext, rem := .now (mantField w <<< k.toNat), k := .now k,
    mstr := .ofFn fun j => if j.val < k.toNat then .now ((mantField w).getLsbD (51 - j.val)) else .empty false }
def inAsm (w : Word) (v : Number) (e : BitVec 12) : State :=
  { inMext w v e 52 with phase := .asm }
/-- With a result in `OUT`. -/
def inDone (w : Word) : State :=
  { inSign w with phase := .done, out := Memory.writeString [] 0 ((List.range 64).map fun i => w.getLsbD (63 - i)) }
def inFault (w : Word) : State := { inSign w with phase := .fault, cause := .nanOperand }

theorem inSign_inv (w : Word) : MachineInv (inSign w) := ⟨by simp [inSign, State.reset], fun _ => rfl, rfl, rfl⟩

theorem inExps_inv {w : Word} {v : Number} {e : BitVec 12} (h : unpack w = .num v)
    (he : (0 ≤ e.toInt ∧ e.toInt ≤ exitE w) ∨ (exitE w ≤ e.toInt ∧ e.toInt ≤ 0)) : MachineInv (inExps w v e) :=
  ⟨by simp [inExps, inSign, State.reset], fun _ => rfl, rfl, ⟨rfl, v, h, rfl, rfl⟩, rfl, he⟩

theorem inBias_inv {w : Word} {v : Number} {e : BitVec 12} (h : unpack w = .num v) (he : e.toInt = exitE w) :
    MachineInv (inBias w v e) :=
  ⟨by simp [inBias, inExps, inSign, State.reset], fun _ => rfl, rfl, ⟨rfl, v, h, rfl, rfl⟩, rfl, he⟩

theorem inExpe_inv {w : Word} {v : Number} {e : BitVec 12} (h : unpack w = .num v) : MachineInv (inExpe w v e) :=
  ⟨by simp [inExpe, inExps, inSign, State.reset], fun _ => rfl, rfl, ⟨rfl, v, h, rfl, rfl⟩, rfl⟩

theorem inMsel_inv {w : Word} {v : Number} {e : BitVec 12} (h : unpack w = .num v) : MachineInv (inMsel w v e) :=
  ⟨by simp [inMsel, inExpe, inExps, inSign, State.reset], fun _ => rfl, rfl, ⟨rfl, v, h, rfl, rfl⟩, rfl, rfl⟩

theorem inMext_inv {w : Word} {v : Number} {e : BitVec 12} {k : BitVec 6} (h : unpack w = .num v) (hk : k.toNat ≤ 51) :
    MachineInv (inMext w v e k) := by
  refine ⟨by simp [inMext, inMsel, inExpe, inExps, inSign, State.reset], fun _ => rfl, rfl, ⟨rfl, v, h, rfl, rfl⟩, rfl, rfl, hk,
    rfl, fun j hj => ?_, fun j hj => ?_⟩
  · simp only [inMext, Reg.now] at hj
    simp [CellDone, inMext, hj, inMsel, inExpe, inExps, inSign]
  · simp only [inMext, Reg.now] at hj
    simp [inMext, not_lt.mpr hj]

theorem inAsm_inv {w : Word} {v : Number} {e : BitVec 12} (h : unpack w = .num v) : MachineInv (inAsm w v e) := by
  refine ⟨by simp [inAsm, inMext, inMsel, inExpe, inExps, inSign, State.reset], fun _ => rfl, rfl, ⟨rfl, v, h, rfl, rfl⟩, rfl, rfl,
    fun j => ?_⟩
  simp [CellDone, inAsm, inMext, inMsel, inExpe, inExps, inSign]

theorem inDone_negInf_inv : MachineInv (inDone negInf) :=
  ⟨by simp [inDone, inSign, State.reset], fun h => absurd rfl h, by decide +kernel, not_nan_of_num unpack_negInf, by
    show ∀ i < 64, (inDone negInf).out.read i = some (negInf.getLsbD (63 - i))
    decide +kernel⟩

theorem inFault_inv {w : Word} (h : unpack w = .nan) : MachineInv (inFault w) :=
  ⟨by simp [inFault], fun _ => rfl, rfl, (unpack_eq_nan_iff w).mp h⟩

/-! ### Witnesses of the statements' hypotheses, one for each statement that has some -/

/-- A host that resets and presents a command in the same step. -/
def resetPort : PortIn := ⟨true, true, 0x3FF0000000000000, 0⟩
/-- A host that presents `ENCODE`. -/
def encodePort (w : Word) : PortIn := ⟨false, true, w, 0⟩
/-- A state with one step's inputs. -/
def withPort (s : State) (p : PortIn) : State := { s with inputs := [p] }

theorem witness_ResetStepWins : (withPort (inFault nanWord) resetPort).port.rst = true := by decide
theorem witness_MemReadReadsCellsInOrder :
    (1 ≤ 64 ∧ 0 + 64 ≤ 64) ∧ (1 ≤ 1 ∧ 63 + 1 ≤ 64) ∧ (inDone negInf).valid = true ∧
    (inDone negInf).out.read 0 = some true ∧ (inDone negInf).out.read 63 = some false := by decide +kernel
theorem witness_EncodeIsAcceptedExactlyWhenNotBusy :
    State.reset.busy = false ∧ (inDone negInf).busy = false ∧ (inFault nanWord).busy = false ∧ (inSign negInf).busy = true ∧
    asm2.busy = true := by decide
theorem witness_HoldStepPerformsTheCommand :
    (State.reset.busy = false ∧ State.reset.port.rst = false ∧ State.reset.port.start = false) ∧
    ((withPort (inFault nanWord) (encodePort least)).busy = false ∧
      (withPort (inFault nanWord) (encodePort least)).port.rst = false ∧
      (withPort (inFault nanWord) (encodePort least)).port.start = true) := by decide
theorem witness_SignClassifiesTheOperand :
    unpack (inSign nanWord).opd.val = .nan ∧ unpack (inSign negInf).opd.val = .num (.inf true) ∧
    unpack (inSign least).opd.val = .num (.fin false 1) := ⟨unpack_nanWord, unpack_negInf, unpack_least⟩
theorem witness_SignPredicatesGiveBit63 :
    unpack negInf = .num (.inf true) ∧ unpack 0x8000000000000000 = .num (.fin true 0) := ⟨unpack_negInf, by decide +kernel⟩
/-- One word for each end of each class: exponent fields 0, 1, 2046 and 2047. -/
theorem witness_UnpackGivesTheValueOfEachClass :
    least.toNat / 2 ^ 52 % 2 ^ 11 = 0 ∧
    (0x0010000000000000#64).toNat / 2 ^ 52 % 2 ^ 11 = 1 ∧ (0x7FEFFFFFFFFFFFFF#64).toNat / 2 ^ 52 % 2 ^ 11 = 2046 ∧
    (negInf.toNat / 2 ^ 52 % 2 ^ 11 = 2047 ∧ negInf.toNat % 2 ^ 52 = 0) ∧
    (nanWord.toNat / 2 ^ 52 % 2 ^ 11 = 2047 ∧ nanWord.toNat % 2 ^ 52 ≠ 0) := by decide
/-- Both ends of the range of the last clause. -/
theorem witness_SearchTestsCompareTheExactFraction :
    ((-1023 : Int) ≤ -1023 ∧ (-1023 : Int) ≤ 1024) ∧ ((-1023 : Int) ≤ 1024 ∧ (1024 : Int) ≤ 1024) := by decide

theorem units_small : (0 : BitVec 2098).toNat = 0 ∧ (1 : BitVec 2098).toNat = 1 ∧ (2 : BitVec 2098).toNat = 2 := by
  decide +kernel

theorem frac_zero (e : Int) : frac (magRat 0) e = -1 := by
  simp only [frac, magRat, units_small.1, Nat.cast_zero, zero_mul, zero_div, zero_sub]
/-- At equality: `2^-1073 / 2^-1074 - 1 = 1`. -/
theorem frac_two_units : frac (magRat 2) (-1074) = 1 := by
  simp only [frac, magRat, units_small.2.2]
  rw [mul_div_assoc, div_self (by positivity)]
  norm_num

theorem witness_ExpsMakesOneSearchStep_up : ∃ s : State, s.mag.val = .fin 2 ∧ frac (magRat 2) s.e.val.toInt ≥ 1 ∧
    s.e.val.toInt < 1024 :=
  ⟨{ State.reset with mag := .now (.fin 2), e := .now (-1074) }, rfl, by
    show frac (magRat 2) (-1074) ≥ 1
    rw [frac_two_units], by decide⟩
theorem witness_ExpsMakesOneSearchStep_down : ∃ s : State, s.mag.val = .fin 0 ∧ frac (magRat 0) s.e.val.toInt < 0 ∧
    s.e.val.toInt > -1023 :=
  ⟨{ State.reset with mag := .now (.fin 0), e := .now (-1022) }, rfl, by rw [frac_zero]; norm_num, by decide⟩
theorem witness_ExpsMakesOneSearchStep_leave : ∃ s : State, s.mag.val = .fin 0 ∧
    ¬ (frac (magRat 0) s.e.val.toInt ≥ 1 ∧ s.e.val.toInt < 1024) ∧
    ¬ (frac (magRat 0) s.e.val.toInt < 0 ∧ s.e.val.toInt > -1023) :=
  ⟨{ State.reset with mag := .now (.fin 0), e := .now (-1023) }, rfl, by rw [frac_zero]; norm_num,
    fun h => absurd h.2 (by decide)⟩
theorem witness_ExpsMakesOneSearchStep_inf :
    ((inExps negInf (.inf true) 1023).mag.val = .inf ∧ (inExps negInf (.inf true) 1023).e.val.toInt < 1024) ∧
    ((inExps negInf (.inf true) 1024).mag.val = .inf ∧ (inExps negInf (.inf true) 1024).e.val.toInt ≥ 1024) := by decide
theorem witness_BiasAddsBiasAndClamps :
    (inBias negInf (.inf true) 1024).e.val.toInt ≤ 1024 ∧ (inBias negInf (.inf true) (-1024)).e.val.toInt ≤ 1024 := by decide
theorem witness_SearchExitsAtTheOperandExponent :
    unpack negInf = .num (.inf true) ∧ unpack least = .num (.fin false 1) := ⟨unpack_negInf, unpack_least⟩
theorem witness_MselLoadsTheInitialFraction_inf : (inMsel negInf (.inf true) 1024).mag.val = .inf := by decide
/-- The least subnormal: one unit of 2^-1074 over 2^-1022 is one unit of 2^-52. -/
theorem witness_MselLoadsTheInitialFraction_subnormal : ∃ s : State, s.mag.val = .fin 1 ∧ s.bexp.val = 0 ∧
    remRat 1 = magRat 1 / (2 : ℚ) ^ (-1022 : ℤ) :=
  ⟨inMsel least (.fin false 1) (-1023), rfl, by decide, by
    have h : (1 : BitVec 52).toNat = 1 := by decide
    simp only [remRat, magRat, units_small.2.1, h]
    rw [mul_div_assoc, ← zpow_sub₀ (by norm_num)]
    norm_num⟩
/-- The least normal magnitude, 2^52 units, at the least normal exponent: the fraction is 0. -/
theorem witness_MselLoadsTheInitialFraction_normal : ∃ s : State, s.mag.val = .fin 0x10000000000000 ∧ s.bexp.val ≠ 0 ∧
    remRat 0 = magRat 0x10000000000000 / (2 : ℚ) ^ ((s.bexp.val.toNat : ℤ) - 1023) - 1 :=
  ⟨{ State.reset with mag := .now (.fin 0x10000000000000), bexp := .now 1 }, rfl, by decide, by
    show remRat 0 = magRat 0x10000000000000 / (2 : ℚ) ^ (((1 : ℕ) : ℤ) - 1023) - 1
    have h : ((0x10000000000000 : BitVec 2098).toNat : ℚ) = (2 : ℚ) ^ (52 : ℤ) := by
      have : (0x10000000000000 : BitVec 2098).toNat = 4503599627370496 := by decide +kernel
      rw [this]; norm_num
    simp only [remRat, magRat, h]
    rw [← zpow_add₀ (by norm_num), ← zpow_sub₀ (by norm_num)]
    norm_num⟩
theorem witness_InitialFractionIsTheMantissaField :
    unpack negInf = .num (.inf true) ∧ unpack least = .num (.fin false 1) := ⟨unpack_negInf, unpack_least⟩
/-- A remainder of 1/2, at equality of the comparison with 1, and 0, below it, at the two ends of `K`. -/
theorem witness_MextEmitsOneCharacter :
    (inMext least (.fin false 1) (-1023) 51).k.val.toNat ≤ 51 ∧ (inMext least (.fin false 1) (-1023) 0).k.val.toNat ≤ 51 ∧
    2 * remRat 0x8000000000000 ≥ 1 ∧ 2 * remRat 0 < 1 := by
  refine ⟨by decide, by decide, ?_, ?_⟩
  · have : ((0x8000000000000 : BitVec 52).toNat : ℚ) = 2251799813685248 := by norm_cast
    simp only [remRat, this]; norm_num
  · simp [remRat]
theorem witness_MextBeyondTheLastCellWritesNoCell :
    ({ State.reset with k := .now 52 } : State).k.val.toNat > 51 ∧ ({ State.reset with k := .now 63 } : State).k.val.toNat > 51 := by
  decide
theorem witness_AsmWritesTheWholeString : asm2.out.wf = true ∧ (inDone negInf).out.wf = true := by decide +kernel
theorem witness_WritesStayInTheWriteSets : ∃ t, exec .bias (inBias least (.fin false 1) (-1023)) = .next t := ⟨_, rfl⟩
theorem witness_ExactlyTheAssignedWordsDecode :
    (10 ≤ (RawWord.mk .phase 10).bits ∧ (RawWord.mk .phase 10).bits ≤ 15) ∧
    (10 ≤ (RawWord.mk .phase 15).bits ∧ (RawWord.mk .phase 15).bits ≤ 15) ∧ decode (.mk .phase 9) = .ok .fault :=
  ⟨by decide, by decide, rfl⟩
theorem witness_StepRunsTheDecodedInstructions_hold :
    let s := withPort (inDone negInf) (encodePort least)
    s.port.rst = false ∧ decodePhase s.phase.code = .ok .done ∧ s.busy = false ∧ s.port.start = true :=
  ⟨rfl, rfl, rfl, rfl⟩
theorem witness_StepRunsTheDecodedInstructions_busy :
    let s := inMext least (.fin false 1) (-1023) 51
    s.port.rst = false ∧ decodePhase s.phase.code = .ok .mext ∧ s.busy = true ∧ s.port.start = false :=
  ⟨rfl, rfl, rfl, rfl⟩
theorem witness_StepFollowsTheStepFunction :
    (withPort (inSign least) resetPort).port.rst = true ∧
    ((withPort State.reset (encodePort least)).port.rst = false ∧ (withPort State.reset (encodePort least)).port.start = true) ∧
    ((inFault nanWord).port.rst = false ∧ (inFault nanWord).port.start = false) ∧ (inSign least).phase = .sign ∧
    (inExps least (.fin false 1) 0).phase = .exps ∧ (inBias least (.fin false 1) (-1023)).phase = .bias ∧
    (inExpe least (.fin false 1) (-1023)).phase = .expe ∧ (inMsel least (.fin false 1) (-1023)).phase = .msel ∧
    (inMext least (.fin false 1) (-1023) 0).phase = .mext ∧ (inAsm least (.fin false 1) (-1023)).phase = .asm := by
  decide
theorem witness_PhaseMovesAlongTheGraph : ∃ t, step (inMext least (.fin false 1) (-1023) 51) = .next t ∧ t.phase = .asm :=
  ⟨_, rfl, rfl⟩
theorem witness_BusyStepIgnoresThePorts :
    (inSign least).busy = true ∧ (encodePort nanWord).rst = false ∧ PortIn.quiet.rst = false ∧
    ∃ t, step { inSign least with inputs := [encodePort nanWord] } = .next t :=
  ⟨rfl, rfl, rfl, _, step_of_busy rfl rfl⟩
theorem witness_FaultIsEnteredOnlyByANaN :
    ∃ t, step (inSign nanWord) = .next t ∧ t.phase = .fault ∧ (inSign nanWord).phase ≠ .fault := by
  refine ⟨raiseFault .nanOperand (inSign nanWord).consume, ?_, rfl, by decide⟩
  have h : step (inSign nanWord) = execSign (inSign nanWord).consume := step_of_busy rfl rfl
  have hu : unpack (inSign nanWord).consume.opd.val = .nan := unpack_nanWord
  rw [h, execSign, hu]
theorem witness_FaultIsLeftOnlyByEncodeOrReset :
    (inFault nanWord).phase = .fault ∧ (∃ t, step (withPort (inFault nanWord) resetPort) = .next t) ∧
    (∃ t, step (withPort (inFault nanWord) (encodePort least)) = .next t) ∧ ∃ t, step (inFault nanWord) = .next t :=
  ⟨rfl, ⟨_, rfl⟩, ⟨_, rfl⟩, _, rfl⟩
theorem witness_ResultIsStableUntilTheNextCommand :
    (inDone negInf).valid = true ∧ (∃ t, step (withPort (inDone negInf) resetPort) = .next t) ∧
    (∃ t, step (withPort (inDone negInf) (encodePort least)) = .next t) ∧ ∃ t, step (inDone negInf) = .next t :=
  ⟨rfl, ⟨_, rfl⟩, ⟨_, rfl⟩, _, rfl⟩
theorem witness_StepKeepsTheFormOfOut : asm2.out.wf = true ∧ ∃ t, step asm2 = .next t ∧ t.phase = .done :=
  ⟨rfl, _, rfl, rfl⟩

/-- The hypotheses of `StepKeepsTheMachineInvariant`, in a busy phase, in `DONE` and in `FAULT`. -/
theorem witness_StepKeepsTheMachineInvariant :
    (MachineInv (inAsm negInf (.inf true) 1024) ∧ ∃ t, step (inAsm negInf (.inf true) 1024) = .next t ∧ t.phase = .done) ∧
    (MachineInv (inDone negInf) ∧ ∃ t, step (inDone negInf) = .next t) ∧
    (MachineInv (inFault nanWord) ∧ ∃ t, step (inFault nanWord) = .next t) :=
  ⟨⟨inAsm_inv unpack_negInf, _, rfl, rfl⟩, ⟨inDone_negInf_inv, _, rfl⟩, inFault_inv unpack_nanWord, _, rfl⟩
theorem witness_NoReadOfAValuelessRegister :
    MachineInv (inSign nanWord) ∧ MachineInv (inExpe least (.fin false 1) (-1023)) ∧ MachineInv (inAsm least (.fin false 1) (-1023)) :=
  ⟨inSign_inv _, inExpe_inv unpack_least, inAsm_inv unpack_least⟩
theorem witness_CauseAndOutFollowThePhase :
    (MachineInv (inFault nanWord) ∧ (inFault nanWord).phase = .fault) ∧ (MachineInv (inDone negInf) ∧ (inDone negInf).valid = true) :=
  ⟨⟨inFault_inv unpack_nanWord, rfl⟩, inDone_negInf_inv, rfl⟩
/-- Both ends of the range of `E`, and the last count. -/
theorem witness_CountersStayInTheirRanges :
    MachineInv (inExps negInf (.inf true) 1024) ∧ MachineInv (inBias least (.fin false 1) (-1023)) ∧
    MachineInv (inMsel negInf (.inf true) 1024) ∧ MachineInv (inMext least (.fin false 1) (-1023) 51) :=
  ⟨inExps_inv unpack_negInf (.inl (by decide)), inBias_inv unpack_least (by decide), inMsel_inv unpack_negInf,
    inMext_inv unpack_least (by decide)⟩
theorem witness_DoneReadsAsTheOperand : MachineInv (inDone negInf) ∧ (inDone negInf).phase = .done := ⟨inDone_negInf_inv, rfl⟩
/-- Two states at one point of an operation whose other registers differ. -/
theorem witness_StaleContentsNeverShow :
    let s := inExpe least (.fin false 1) (-1023)
    let t := { inExpe least (.fin false 1) (-1023) with xstr := .now (bin 7 11), k := .now 52, draw := 9 }
    s ≠ t ∧ MachineInv s ∧ MachineInv t ∧ SamePoint s t ∧ (∃ u, step s = .next u) ∧ ∃ u, step t = .next u :=
  ⟨fun h => absurd (congrArg State.draw h) (by decide), inExpe_inv unpack_least,
    ⟨by simp [inExpe, inExps, inSign, State.reset], fun _ => rfl, rfl, ⟨rfl, _, unpack_least, rfl, rfl⟩, rfl⟩,
    ⟨rfl, rfl, fun _ => rfl, fun _ => rfl, fun h => absurd h (by decide)⟩, ⟨_, rfl⟩, _, rfl⟩
theorem witness_EncSpellsTheOperand : ¬ IsNaN negInf ∧ ¬ IsNaN least := by decide
theorem witness_EncIsTotalOnOperandWords : IsNaN nanWord ∧ ¬ IsNaN negInf := by decide
theorem witness_SignShowsOnlyInTheFirstCharacter :
    unpack negInf = .num (.inf true) ∧ unpack 0x0000000000000000 = .num (.fin false 0) := ⟨unpack_negInf, by decide +kernel⟩
theorem witness_OperationComputesEnc :
    let p := encodePort negInf
    let s := { inFault nanWord with inputs := [p, encodePort least] }
    s.busy = false ∧ s.inputs = [p, encodePort least] ∧ p.rst = false ∧ p.start = true ∧
    (∀ q ∈ [encodePort least], q.rst = false) ∧ ¬ IsNaN p.operand ∧ IsNaN (encodePort nanWord).operand ∧
    operationSteps p.operand = 1083 ∧ operationSteps (encodePort nanWord).operand = 2 := by decide
theorem witness_CallEncodeReportsEnc : MachineInv (inExps negInf (.inf true) 0) ∧ MachineInv State.reset :=
  ⟨inExps_inv unpack_negInf (.inl (by decide)), ⟨by simp [State.reset], fun _ => rfl, rfl, trivial⟩⟩

end Sys2Proof.Tests
end

section
/-! PROOFS. What each instruction does to the state, said once for the later proofs. -/

namespace Sys2Proof.Machine

variable {s : State}

theorem exec_encode (w : Word) (s : State) : exec (.encode w) s = .next (if s.busy then s else accept w s) := rfl

theorem exec_sign_of_nan (h : unpack s.opd.val = .nan) : exec .sign s = .next (raiseFault .nanOperand s) := by
  simp only [exec, execSign, h]

theorem exec_sign_of_num {v : Number} (h : unpack s.opd.val = .num v) :
    exec .sign s =
      .next { s with sbit := .now v.sign, mag := .now v.abs, e := .now Config.eStart, phase := .exps } := by
  simp only [exec, execSign, h]

theorem exec_exps_of_some {e : BitVec 12} (h : searchStep s.mag.val s.e.val = some e) :
    exec .exps s = .next { s with e := .now e } := by
  simp only [exec, execExps, h]

theorem exec_exps_of_none (h : searchStep s.mag.val s.e.val = none) :
    exec .exps s = .next { s with phase := .bias } := by
  simp only [exec, execExps, h]

theorem exec_bias (s : State) :
    exec .bias s = .next { s with bexp := .now (biasOf s.e.val s.draw), phase := .expe } := rfl

theorem exec_expe (s : State) :
    exec .expe s = .next { s with xstr := .now (bin s.bexp.val.toNat 11), phase := .msel } := rfl

theorem exec_msel (s : State) :
    exec .msel s =
      .next { s with
        rem := .now (selectRem s.mag.val s.bexp.val s.draw), k := .now 0, mstr := emptyMstr s.draw, phase := .mext } := rfl

theorem exec_mext (s : State) :
    exec .mext s =
      .next { s with
        mstr := s.mstr.setIfInBounds s.k.val.toNat (.now (double s.rem.val).1)
        rem := .now (double s.rem.val).2
        k := .now (nextK s.k.val s.draw)
        phase := if s.k.val.toNat = 51 then .asm else s.phase } := rfl

theorem exec_asm (s : State) :
    exec .asm s = .next { s with out := s.out.writeString 0 s.resultString, phase := .done } := rfl

/-- A count of at most 51 grows by 1 without wrapping, and draws no free value (R112, R122). -/
theorem nextK_of_le {k : BitVec 6} (h : k.toNat ≤ 51) (draw : Nat) :
    nextK k draw = k + 1 ∧ (nextK k draw).toNat = k.toNat + 1 := by
  have hk : nextK k draw = k + 1 := if_pos (by omega)
  refine ⟨hk, ?_⟩
  rw [hk, BitVec.toNat_add_of_lt (show k.toNat + 1 < 2 ^ 6 by omega)]; rfl

/-! ### The result string and the fields it spells -/

theorem expField_getLsbD (w : Word) {j : Nat} (h : j < 11) : (expField w).getLsbD j = w.getLsbD (52 + j) := by
  simp [expField, h]

theorem mantField_getLsbD (w : Word) {j : Nat} (h : j < 52) : (mantField w).getLsbD j = w.getLsbD j := by
  simp [mantField, h]

/-- The string `ASM` writes has 64 characters (R130). -/
@[simp] theorem resultString_length (s : State) : s.resultString.length = 64 := by
  simp [State.resultString, State.mantissaString]

theorem resultString_sign (s : State) : s.resultString[0]? = some s.sbit.val := rfl

theorem resultString_exponent (s : State) {j : Nat} (h : j < 11) : s.resultString[1 + j]? = some s.xstr.val[j] := by
  rw [State.resultString, Nat.add_comm, List.getElem?_cons_succ, List.getElem?_append_left (by simpa using h)]
  simp [h]

theorem resultString_mantissa (s : State) {j : Nat} (h : j < 52) : s.resultString[12 + j]? = some s.mstr[j].val := by
  rw [State.resultString, show 12 + j = 11 + j + 1 by omega, List.getElem?_cons_succ,
    List.getElem?_append_right (by simp)]
  simp [State.mantissaString, h]

/-- The cells `ASM` writes read as the string it writes (R44, R130). -/
theorem read_asm (s : State) (m : Memory) {i : Nat} (h : i < 64) :
    (m.writeString 0 s.resultString).read i = s.resultString[i]? := by
  have hi : i < s.resultString.length := by simpa using h
  simpa [List.getElem?_eq_getElem hi] using Memory.read_writeString_inside s.resultString m 0 i hi

end Sys2Proof.Machine
end

section
/-! PROOFS. The machine invariant: each micro-operation keeps it, and so does every step (R32 to R35). -/

namespace Sys2Proof.Safety

open Sys2Proof.Machine

variable {s t : State}

theorem machineInv_afterReset (s : State) : MachineInv (afterReset s) :=
  ⟨by simp [State.reset], fun _ => rfl, rfl, trivial⟩

theorem machineInv_accept (w : Word) (s : State) : MachineInv (accept w s) :=
  ⟨by simp, fun _ => rfl, rfl, rfl⟩

/-- The invariant says nothing of the inputs. -/
theorem MachineInv.consume (h : MachineInv s) : MachineInv s.consume := ⟨h.cause, h.window, h.form, h.phase⟩

/-- In a busy phase no cell of `OUT` holds a value (R33). -/
theorem MachineInv.out_of_busy (h : MachineInv s) (hb : s.busy = true) : s.out = [] :=
  h.window fun hp => by simp [State.busy, hp] at hb

/-- Between two busy phases the invariant needs only what the later phase finds, where `CAUSE` and `OUT` are not written. -/
theorem MachineInv.of_busy (h : MachineInv s) (hs : s.busy = true) (ht : t.busy = true) (hc : t.cause = s.cause)
    (ho : t.out = s.out) (hp : PhaseInv t) : MachineInv t where
  cause := by
    have hfs : s.phase ≠ .fault := fun hp => by simp [State.busy, hp] at hs
    have hft : t.phase ≠ .fault := fun hp => by simp [State.busy, hp] at ht
    rw [hc, h.cause, iff_false_left hfs]
    exact hft
  window _ := by rw [ho, h.out_of_busy hs]
  form := by rw [ho]; exact h.form
  phase := hp

/-- `S` is bit 63 of the operand (R87, R101). -/
theorem Signed.sbit_val (h : Signed s) : s.sbit.val = s.opd.val.getLsbD 63 := by
  obtain ⟨-, v, hv, hs, -⟩ := h
  rw [hs, reg_now_val, sign_of_unpack hv]; rfl

theorem Signed.sbit_held (h : Signed s) : s.sbit.held = true := by
  obtain ⟨-, v, -, hs, -⟩ := h
  rw [hs, reg_now_held]

theorem Signed.mag_held (h : Signed s) : s.mag.held = true := by
  obtain ⟨-, v, -, -, hm⟩ := h
  rw [hm, reg_now_held]

/-- `SIGN` keeps the invariant (R100). -/
theorem MachineInv.sign (h : MachineInv s) (hp : s.phase = .sign) (hx : exec .sign s = .next t) : MachineInv t := by
  have hb : s.busy = true := by simp [State.busy, hp]
  have hopd : s.opd.held = true := by simpa only [PhaseInv, hp] using h.phase
  cases hu : unpack s.opd.val with
  | nan =>
    rw [exec_sign_of_nan hu] at hx
    cases hx
    exact ⟨by simp, fun _ => h.out_of_busy hb, h.form, (unpack_eq_nan_iff _).mp hu⟩
  | num v =>
    rw [exec_sign_of_num hu] at hx
    cases hx
    refine h.of_busy hb rfl rfl rfl ⟨⟨hopd, v, hu, rfl, rfl⟩, rfl, ?_⟩
    show (0 ≤ (0 : Int) ∧ 0 ≤ exitE s.opd.val) ∨ (exitE s.opd.val ≤ 0 ∧ (0 : Int) ≤ 0)
    omega

/-- `EXPS` keeps the invariant: `E` moves towards the exit exponent and the search ends there (R106, R107). -/
theorem MachineInv.exps (h : MachineInv s) (hp : s.phase = .exps) (hx : exec .exps s = .next t) : MachineInv t := by
  have hb : s.busy = true := by simp [State.busy, hp]
  have hi := h.phase
  simp only [PhaseInv, hp] at hi
  obtain ⟨hs, he, hrange⟩ := hi
  obtain ⟨-, v, hv, -, hm⟩ := id hs
  have hmv : s.mag.val = v.abs := by rw [hm, reg_now_val]
  have hexit := exitE_range s.opd.val
  rcases lt_trichotomy s.e.val.toInt (exitE s.opd.val) with hlt | heq | hgt
  · rw [exec_exps_of_some (hmv ▸ searchStep_up hv (by omega) hlt)] at hx
    cases hx
    refine h.of_busy hb hb rfl rfl ?_
    simp only [PhaseInv, hp, reg_now_val, toInt_add_one (e := s.e.val) (by omega)]
    exact ⟨hs, rfl, by omega⟩
  · rw [exec_exps_of_none (hmv ▸ searchStep_exit hv heq)] at hx
    cases hx
    exact h.of_busy hb rfl rfl rfl ⟨hs, he, heq⟩
  · rw [exec_exps_of_some (hmv ▸ searchStep_down hv (by omega) hgt)] at hx
    cases hx
    refine h.of_busy hb hb rfl rfl ?_
    simp only [PhaseInv, hp, reg_now_val, toInt_sub_one (e := s.e.val) (by omega)]
    exact ⟨hs, rfl, by omega⟩

/-- `BIAS` keeps the invariant: it writes the exponent field (R114). -/
theorem MachineInv.bias (h : MachineInv s) (hp : s.phase = .bias) (hx : exec .bias s = .next t) : MachineInv t := by
  have hb : s.busy = true := by simp [State.busy, hp]
  have hi := h.phase
  simp only [PhaseInv, hp] at hi
  obtain ⟨hs, -, he⟩ := hi
  rw [exec_bias] at hx
  cases hx
  exact h.of_busy hb rfl rfl rfl ⟨hs, congrArg Reg.now (biasOf_exit he _)⟩

/-- `EXPE` keeps the invariant: it spells the exponent field (R111). -/
theorem MachineInv.expe (h : MachineInv s) (hp : s.phase = .expe) (hx : exec .expe s = .next t) : MachineInv t := by
  have hb : s.busy = true := by simp [State.busy, hp]
  have hi := h.phase
  simp only [PhaseInv, hp] at hi
  obtain ⟨hs, hbexp⟩ := hi
  rw [exec_expe] at hx
  cases hx
  exact h.of_busy hb rfl rfl rfl ⟨hs, hbexp, by rw [hbexp, reg_now_val]⟩

/-- `MSEL` keeps the invariant: it loads the mantissa field and empties `MSTR` (R120, R121). -/
theorem MachineInv.msel (h : MachineInv s) (hp : s.phase = .msel) (hx : exec .msel s = .next t) : MachineInv t := by
  have hb : s.busy = true := by simp [State.busy, hp]
  have hi := h.phase
  simp only [PhaseInv, hp] at hi
  obtain ⟨hs, hbexp, hxstr⟩ := hi
  obtain ⟨-, v, hv, -, hm⟩ := id hs
  have hrem : selectRem s.mag.val s.bexp.val s.draw = mantField s.opd.val := by
    rw [hm, hbexp]; exact selectRem_field hv _
  rw [exec_msel] at hx
  cases hx
  refine h.of_busy hb rfl rfl rfl ⟨hs, hxstr, rfl, by simp, ?_, fun j hj => ?_, fun j _ => ?_⟩
  · simp [hrem]
  · simp at hj
  · simp [emptyMstr]

/-- `MEXT` writes the operand's next mantissa character into cell `K` and leaves the other cells (R122, R124). -/
theorem getElem_mext {w : Word} (hk : s.k.val.toNat ≤ 51) (hr : s.rem = .now (mantField w <<< s.k.val.toNat)) (j : Fin 52) :
    (s.mstr.setIfInBounds s.k.val.toNat (.now (double s.rem.val).1))[j] =
      if j.val = s.k.val.toNat then .now ((mantField w).getLsbD (51 - j.val)) else s.mstr[j] := by
  rw [hr, reg_now_val, double_shiftLeft_char _ _ (by omega)]
  simp only [Fin.getElem_fin, Vector.getElem_setIfInBounds, eq_comm (a := s.k.val.toNat)]
  split
  · rename_i hj; rw [hj]
  · rfl

/-- `MEXT` keeps the invariant: it emits the next mantissa character, and the last one ends the doubling (R122, R124). -/
theorem MachineInv.mext (h : MachineInv s) (hp : s.phase = .mext) (hx : exec .mext s = .next t) : MachineInv t := by
  have hb : s.busy = true := by simp [State.busy, hp]
  have hi := h.phase
  simp only [PhaseInv, hp] at hi
  obtain ⟨hs, hxstr, -, hk, hrem, hdone, hempty⟩ := hi
  obtain ⟨hnext, hnextNat⟩ := nextK_of_le hk s.draw
  have hcell := getElem_mext hk hrem
  -- the cells up to and with the one written are done
  have hcells : ∀ j : Fin 52, j.val < s.k.val.toNat + 1 →
      (s.mstr.setIfInBounds s.k.val.toNat (.now (double s.rem.val).1))[j] =
        .now ((mantField s.opd.val).getLsbD (51 - j.val)) := fun j hj => by
    rw [hcell j]
    split
    · rfl
    · exact hdone j (by omega)
  rw [exec_mext] at hx
  cases hx
  by_cases hlast : s.k.val.toNat = 51
  · have hk51 : s.k.val = 51 := BitVec.eq_of_toNat_eq hlast
    refine h.of_busy hb (by simp [State.busy, hlast]) rfl rfl ?_
    simp only [PhaseInv, if_pos hlast]
    exact ⟨hs, hxstr, by rw [hnext, hk51]; rfl, fun j => hcells j (by omega)⟩
  · refine h.of_busy hb (by simp [State.busy, hlast, hp]) rfl rfl ?_
    simp only [PhaseInv, if_neg hlast, hp, reg_now_val, reg_now_held, hnextNat]
    refine ⟨hs, hxstr, trivial, by omega, ?_, hcells, fun j hj => ?_⟩
    · rw [hrem, reg_now_val, double_shiftLeft_rem]
    · rw [hcell j, if_neg (by omega)]
      exact hempty j (by omega)

/-- What `ASM` assembles is the operand, most significant bit first (R88, R130). -/
theorem resultString_spells_operand (hs : Signed s) (hxstr : s.xstr = .now (bin (expField s.opd.val).toNat 11))
    (hcells : ∀ j, CellDone s j) {i : Nat} (hi : i < 64) : s.resultString[i]? = some (s.opd.val.getLsbD (63 - i)) := by
  rcases Nat.lt_or_ge i 12 with h12 | h12
  · rcases Nat.eq_zero_or_pos i with rfl | hpos
    · rw [resultString_sign, hs.sbit_val]
    · obtain ⟨j, rfl⟩ := Nat.exists_eq_add_of_le hpos
      simp only [resultString_exponent s (show j < 11 by omega), hxstr, reg_now_val]
      rw [bin_toNat_getElem _ _ (by omega), expField_getLsbD _ (by omega)]
      congr 2; omega
  · obtain ⟨j, rfl⟩ := Nat.exists_eq_add_of_le h12
    have hj : s.mstr[j] = .now ((mantField s.opd.val).getLsbD (51 - j)) := hcells ⟨j, by omega⟩
    rw [resultString_mantissa s (by omega), hj, reg_now_val, mantField_getLsbD _ (by omega)]
    congr 2; omega

/-- `ASM` keeps the invariant: `OUT` spells the operand (R130). -/
theorem MachineInv.asm (h : MachineInv s) (hp : s.phase = .asm) (hx : exec .asm s = .next t) : MachineInv t := by
  have hi := h.phase
  simp only [PhaseInv, hp] at hi
  obtain ⟨hs, hxstr, -, hcells⟩ := hi
  obtain ⟨-, v, hv, -, -⟩ := id hs
  have hcause := h.cause
  rw [exec_asm] at hx
  cases hx
  refine ⟨by simpa [hp] using hcause, fun hd => absurd rfl hd, Memory.wf_writeString _ h.form (by simp),
    not_nan_of_num hv, fun i hi => ?_⟩
  rw [read_asm s _ hi, resultString_spells_operand hs hxstr hcells hi]

/-- The micro-operation of every busy phase keeps the invariant. -/
theorem MachineInv.microOp (h : MachineInv s) (hb : s.busy = true) (hx : exec s.phase.instr s = .next t) :
    MachineInv t := by
  cases hp : s.phase with
  | idle | done | fault => simp [State.busy, hp] at hb
  | sign => rw [hp] at hx; exact h.sign hp hx
  | exps => rw [hp] at hx; exact h.exps hp hx
  | bias => rw [hp] at hx; exact h.bias hp hx
  | expe => rw [hp] at hx; exact h.expe hp hx
  | msel => rw [hp] at hx; exact h.msel hp hx
  | mext => rw [hp] at hx; exact h.mext hp hx
  | asm => rw [hp] at hx; exact h.asm hp hx

/-- Every step keeps the invariant. -/
theorem MachineInv.step (h : MachineInv s) (hx : step s = .next t) : MachineInv t := by
  rcases step_cases hx with ⟨-, rfl⟩ | ⟨-, -, -, rfl⟩ | ⟨-, -, -, rfl⟩ | ⟨-, hb, hx⟩
  · exact machineInv_afterReset s
  · exact machineInv_accept _ _
  · exact h.consume
  · exact h.consume.microOp hb hx

/-- In `DONE` cell `i` holds bit `63 - i` of the operand. -/
theorem MachineInv.read_of_done (h : MachineInv s) (hp : s.phase = .done) {i : Nat} (hi : i < 64) :
    s.out.read i = some (s.opd.val.getLsbD (63 - i)) := by
  have hd := h.phase
  simp only [PhaseInv, hp] at hd
  exact hd.2 i hi

/-- Outside `DONE` no cell holds a value. -/
theorem MachineInv.read_of_not_done (h : MachineInv s) (hp : s.phase ≠ .done) (i : Nat) : s.out.read i = none := by
  rw [h.window hp, Memory.read_nil]

/-- The cause is a function of the phase (R32). -/
theorem MachineInv.cause_eq (h : MachineInv s) : s.cause = if s.phase = .fault then .nanOperand else .none := by
  have hc := h.cause
  split
  · rename_i hp; exact hc.mpr hp
  · rename_i hp
    cases hs : s.cause with
    | none => rfl
    | nanOperand => exact absurd (hc.mp hs) hp

end Sys2Proof.Safety
end

section
/-! PROOFS. The statements on reset, flags, write sets and the invariant (10_state). -/

namespace Sys2Proof.Proofs

open Sys2Proof.Machine Sys2Proof.Safety

/-- Settles O38: a reset and an accepted command give states of the invariant, and each micro-operation keeps it. -/
theorem stepKeepsTheMachineInvariant : Obligations.StepKeepsTheMachineInvariant := by
  unfold Obligations.StepKeepsTheMachineInvariant
  exact fun _ _ h hx => h.step hx

/-- Settles O25: each instruction's next state is a record update that names what it writes. -/
theorem writesStayInTheWriteSets : Obligations.WritesStayInTheWriteSets := by
  unfold Obligations.WritesStayInTheWriteSets
  intro i s t h
  cases i with
  | nop w | idle | done | fault => cases h; simp
  | encode w =>
    rw [exec_encode] at h
    cases h
    cases s.busy <;> simp
  | sign =>
    cases hu : unpack s.opd.val with
    | nan => rw [exec_sign_of_nan hu] at h; cases h; simp
    | num v => rw [exec_sign_of_num hu] at h; cases h; simp
  | exps =>
    cases he : searchStep s.mag.val s.e.val with
    | none => rw [exec_exps_of_none he] at h; cases h; simp
    | some e => rw [exec_exps_of_some he] at h; cases h; simp
  | bias => rw [exec_bias] at h; cases h; simp
  | expe => rw [exec_expe] at h; cases h; simp
  | msel => rw [exec_msel] at h; cases h; simp
  | mext => rw [exec_mext] at h; cases h; simp
  | asm => rw [exec_asm] at h; cases h; simp

/-- Settles O39: what each phase finds includes the marks of the registers its micro-operation reads. -/
theorem noReadOfAValuelessRegister : Obligations.NoReadOfAValuelessRegister := by
  unfold Obligations.NoReadOfAValuelessRegister
  intro s h
  have hi := h.phase
  cases hp : s.phase with
  | idle | done | fault => simp only [ReadsHeld, hp]
  | sign => simpa only [ReadsHeld, PhaseInv, hp] using hi
  | exps =>
    simp only [ReadsHeld, PhaseInv, hp] at hi ⊢
    exact ⟨hi.1.mag_held, hi.2.1⟩
  | bias =>
    simp only [ReadsHeld, PhaseInv, hp] at hi ⊢
    exact hi.2.1
  | expe =>
    simp only [ReadsHeld, PhaseInv, hp] at hi ⊢
    simp [hi.2]
  | msel =>
    simp only [ReadsHeld, PhaseInv, hp] at hi ⊢
    obtain ⟨hs, hbexp, -⟩ := hi
    simp [hs.mag_held, hbexp]
  | mext =>
    simp only [ReadsHeld, PhaseInv, hp] at hi ⊢
    obtain ⟨-, -, hk, -, hrem, -⟩ := hi
    simp [hk, hrem]
  | asm =>
    simp only [ReadsHeld, PhaseInv, hp] at hi ⊢
    obtain ⟨hs, hxstr, -, hcells⟩ := hi
    exact ⟨hs.sbit_held, by simp [hxstr], fun j _ => by rw [hcells j, reg_now_held]⟩

/-- Settles O40: `OUT` spells the operand in `DONE` and is empty in every other phase. -/
theorem causeAndOutFollowThePhase : Obligations.CauseAndOutFollowThePhase := by
  unfold Obligations.CauseAndOutFollowThePhase
  intro s h
  refine ⟨?_, ?_⟩
  · rw [h.cause_eq]
    split <;> simp [causeCode, *]
  · by_cases hp : s.phase = .done
    · have hv : s.valid = true := by simp [State.valid, hp]
      have hread := fun i hi => h.read_of_done (i := i) hp hi
      exact ⟨iff_of_true hv fun i hi => ⟨_, hread i hi⟩,
        iff_of_false (by simp [hv]) fun hnone => by simpa [hnone] using hread 0 (by decide)⟩
    · have hv : s.valid = false := by simp [State.valid, hp]
      have hread := h.read_of_not_done hp
      exact ⟨iff_of_false (by simp [hv]) fun hall => by simpa [hread] using hall 0 (by decide), iff_of_true hv hread⟩

/-- Settles O1: the reset state is written out in the model. -/
theorem resetIsIdleWithNothingHeld : Obligations.ResetIsIdleWithNothingHeld := by
  unfold Obligations.ResetIsIdleWithNothingHeld
  refine ⟨rfl, rfl, rfl, rfl, rfl, rfl, rfl, rfl, rfl, rfl, rfl, rfl, rfl, fun j => ?_, rfl, rfl⟩
  simp [State.reset]

/-- Settles O4, phase by phase. -/
theorem flagsAreFunctionsOfPhase : Obligations.FlagsAreFunctionsOfPhase := by
  unfold Obligations.FlagsAreFunctionsOfPhase
  intro s
  cases hp : s.phase <;> simp [State.outputs, State.busy, State.valid, State.faulted, hp]

end Sys2Proof.Proofs
end

section
/-! PROOFS. Two machines at the same point of an operation stay there (R37). -/

namespace Sys2Proof.Safety

open Sys2Proof.Machine

variable {s t s' t' : State}

/-- At the same point the host presents the same. -/
theorem SamePoint.port (h : SamePoint s t) : s.port = t.port := by rw [State.port, State.port, h.inputs]

theorem SamePoint.busy (h : SamePoint s t) : s.busy = t.busy := by
  rw [busy_eq_not_hold, busy_eq_not_hold, h.phase]

theorem SamePoint.valid (h : SamePoint s t) : s.valid = t.valid := by rw [State.valid, State.valid, h.phase]

theorem SamePoint.faulted (h : SamePoint s t) : s.faulted = t.faulted := by rw [State.faulted, State.faulted, h.phase]

theorem SamePoint.consume (h : SamePoint s t) : SamePoint s.consume t.consume :=
  ⟨h.phase, congrArg List.tail h.inputs, h.operand, h.search, h.count⟩

/-- One operand has one magnitude (R102). -/
theorem Signed.mag_eq (hs : Signed s) (ht : Signed t) (ho : s.opd = t.opd) : s.mag = t.mag := by
  obtain ⟨-, v, hv, -, hm⟩ := hs
  obtain ⟨-, u, hu, -, hn⟩ := ht
  rw [ho, hu] at hv
  cases hv
  rw [hm, hn]

/-- `SIGN` depends on the operand alone (R100). -/
theorem SamePoint.sign (h : SamePoint s t) (ho : s.opd = t.opd) (hx : exec .sign s = .next s')
    (hy : exec .sign t = .next t') : SamePoint s' t' := by
  cases hu : unpack s.opd.val with
  | nan =>
    rw [exec_sign_of_nan hu] at hx
    rw [exec_sign_of_nan (ho ▸ hu)] at hy
    cases hx; cases hy
    exact ⟨rfl, h.inputs, fun _ => ho, by simp, by simp⟩
  | num v =>
    rw [exec_sign_of_num hu] at hx
    rw [exec_sign_of_num (ho ▸ hu)] at hy
    cases hx; cases hy
    exact ⟨rfl, h.inputs, fun _ => ho, fun _ => rfl, by simp⟩

/-- `EXPS` depends on the operand's magnitude and `E` alone (R106). -/
theorem SamePoint.exps (h : SamePoint s t) (ho : s.opd = t.opd) (hm : s.mag = t.mag) (hp : s.phase = .exps)
    (hx : exec .exps s = .next s') (hy : exec .exps t = .next t') : SamePoint s' t' := by
  have heq : searchStep s.mag.val s.e.val = searchStep t.mag.val t.e.val := by rw [hm, h.search hp]
  cases he : searchStep s.mag.val s.e.val with
  | none =>
    rw [exec_exps_of_none he] at hx
    rw [exec_exps_of_none (heq ▸ he)] at hy
    cases hx; cases hy
    exact ⟨rfl, h.inputs, fun _ => ho, by simp, by simp⟩
  | some e =>
    rw [exec_exps_of_some he] at hx
    rw [exec_exps_of_some (heq ▸ he)] at hy
    cases hx; cases hy
    exact ⟨h.phase, h.inputs, fun _ => ho, fun _ => rfl, by simp [hp]⟩

/-- `MEXT` moves on by the count alone, which draws no free value up to 51 (R112, R122). -/
theorem SamePoint.mext (h : SamePoint s t) (ho : s.opd = t.opd) (hp : s.phase = .mext) (hk : s.k.val.toNat ≤ 51)
    (hx : exec .mext s = .next s') (hy : exec .mext t = .next t') : SamePoint s' t' := by
  have hkk := h.count hp
  rw [exec_mext, (nextK_of_le hk _).1] at hx
  rw [exec_mext, ← hkk, (nextK_of_le hk _).1, ← h.phase] at hy
  cases hx; cases hy
  refine ⟨rfl, h.inputs, fun _ => ho, ?_, fun _ => rfl⟩
  show (if s.k.val.toNat = 51 then Phase.asm else s.phase) = .exps → _
  split <;> simp [hp]

/-- The micro-operation of a busy phase keeps two machines of the invariant at the same point. -/
theorem SamePoint.microOp (h : SamePoint s t) (hs : MachineInv s) (ht : MachineInv t) (hb : s.busy = true)
    (hx : exec s.phase.instr s = .next s') (hy : exec s.phase.instr t = .next t') : SamePoint s' t' := by
  have ho : s.opd = t.opd := h.operand fun hp => by simp [State.busy, hp] at hb
  have hi := hs.phase
  have hj := ht.phase
  rw [PhaseInv, ← h.phase] at hj
  rw [PhaseInv] at hi
  cases hp : s.phase with
  | idle | done | fault => simp [State.busy, hp] at hb
  | sign => rw [hp] at hx hy; exact h.sign ho hx hy
  | exps =>
    rw [hp] at hx hy
    simp only [hp] at hi hj
    exact h.exps ho (hi.1.mag_eq hj.1 ho) hp hx hy
  | mext =>
    rw [hp] at hx hy
    simp only [hp] at hi
    obtain ⟨-, -, -, hk, -⟩ := hi
    exact h.mext ho hp hk hx hy
  | msel =>
    rw [hp] at hx hy; cases hx; cases hy
    exact ⟨rfl, h.inputs, fun _ => ho, by simp, fun _ => rfl⟩
  | bias | expe | asm =>
    rw [hp] at hx hy; cases hx; cases hy
    exact ⟨rfl, h.inputs, fun _ => ho, by simp, by simp⟩

/-- A step keeps two machines of the invariant at the same point. -/
theorem SamePoint.step (h : SamePoint s t) (hs : MachineInv s) (ht : MachineInv t) (hx : step s = .next s')
    (hy : step t = .next t') : SamePoint s' t' := by
  have hport := h.port
  have hbusy := h.busy
  have htail : s.inputs.tail = t.inputs.tail := congrArg List.tail h.inputs
  rcases step_cases hx with ⟨hr, rfl⟩ | ⟨hr, hb, hst, rfl⟩ | ⟨hr, hb, hst, rfl⟩ | ⟨hr, hb, hx⟩
  · rw [step_of_rst (hport ▸ hr)] at hy
    cases hy
    exact ⟨rfl, htail, fun _ => rfl, fun _ => rfl, fun _ => rfl⟩
  · rw [step_of_hold (hport ▸ hr) (hbusy ▸ hb), ← hport, hst] at hy
    cases hy
    exact ⟨rfl, htail, fun _ => rfl, by simp, by simp⟩
  · rw [step_of_hold (hport ▸ hr) (hbusy ▸ hb), ← hport, hst] at hy
    cases hy
    exact h.consume
  · rw [step_of_busy (hport ▸ hr) (hbusy ▸ hb), ← h.phase] at hy
    exact h.consume.microOp hs.consume ht.consume hb hx hy

/-- At the same point the port shows the same character, while `VALID = 1`. -/
theorem SamePoint.readCell (h : SamePoint s t) (hs : MachineInv s) (ht : MachineInv t) (hv : s.valid = true) {i : Nat}
    (hi : i < 64) : s.readCell i = t.readCell i := by
  have hp : s.phase = .done := by simpa [State.valid] using hv
  have ho : s.opd = t.opd := h.operand (by simp [hp])
  rw [readCell_of_read hv (hs.read_of_done hp hi),
    readCell_of_read (h.valid ▸ hv) (ht.read_of_done (h.phase ▸ hp) hi), ho]

end Sys2Proof.Safety

namespace Sys2Proof.Proofs

open Sys2Proof.Machine Sys2Proof.Safety

/-- Settles O43: both machines stay at the same point and in the invariant, which fixes all the host sees. -/
theorem staleContentsNeverShow : Obligations.StaleContentsNeverShow := by
  unfold Obligations.StaleContentsNeverShow
  intro s₁ s₂ t₁ t₂ h₁ h₂ h hx hy
  have hpoint := h.step h₁ h₂ hx hy
  have ht₁ := h₁.step hx
  have ht₂ := h₂.step hy
  refine ⟨hpoint, hpoint.busy, hpoint.valid, hpoint.faulted, ?_, fun hv i hi => hpoint.readCell ht₁ ht₂ hv hi⟩
  rw [ht₁.cause_eq, ht₂.cause_eq, hpoint.phase]

end Sys2Proof.Proofs
end

section
/-! PROOFS. What an instruction and a step can do to `OUT`, and what the host reads of it (R43, R44, R47). -/

namespace Sys2Proof.Machine

variable {s t : State}

/-! ### The cells of `OUT` under a step -/

/-- All an instruction can do to `OUT`: leave it, empty it, or write the whole result string (R35, R44). -/
theorem exec_out_cases {i : Instr} (h : exec i s = .next t) :
    t.out = s.out ∨ t.out = [] ∨ t.out = s.out.writeString 0 s.resultString := by
  cases i with
  | nop w | idle | done | fault | bias | expe | msel | mext => cases h; exact .inl rfl
  | asm => cases h; exact .inr (.inr rfl)
  | encode w =>
    rw [exec_encode] at h
    cases h
    cases s.busy <;> simp
  | sign =>
    cases hu : unpack s.opd.val with
    | nan => rw [exec_sign_of_nan hu] at h; cases h; exact .inl rfl
    | num v => rw [exec_sign_of_num hu] at h; cases h; exact .inl rfl
  | exps =>
    cases he : searchStep s.mag.val s.e.val with
    | none => rw [exec_exps_of_none he] at h; cases h; exact .inl rfl
    | some e => rw [exec_exps_of_some he] at h; cases h; exact .inl rfl

/-- Every instruction keeps the canonical form of `OUT`. -/
theorem exec_keeps_wf {i : Instr} (hwf : s.out.wf = true) (h : exec i s = .next t) : t.out.wf = true := by
  rcases exec_out_cases h with ho | ho | ho <;> rw [ho]
  · exact hwf
  · exact Memory.wf_nil
  · exact Memory.wf_writeString _ hwf (by simp)

/-- `VALID` is 1 exactly in `DONE` (R31). -/
theorem valid_iff : s.valid = true ↔ s.phase = .done := by simp [State.valid]

theorem not_busy_of_valid (h : s.valid = true) : s.busy = false := by simp [State.busy, valid_iff.mp h]

/-- What the port shows of a cell does not depend on the inputs to come. -/
@[simp] theorem readCell_consume (s : State) (i : Nat) : s.consume.readCell i = s.readCell i := rfl

/-! ### The host's reads -/

/-- `MemRead` in its range is the single-cell reads in index order (R43). -/
theorem memRead_eq (s : State) {i n : Nat} (hn : 1 ≤ n) (hi : i + n ≤ 64) :
    s.memRead i n = some ((List.range n).map fun j => s.readCell (i + j)) := by
  rw [State.memRead, if_pos ⟨hn, hi⟩, List.range'_eq_map_range, List.map_map]; rfl

/-- `bin` of a bit vector at its own width lists its bits, the most significant first (R113). -/
theorem bin_toNat_toList {w : Nat} (x : BitVec w) :
    (bin x.toNat w).toList = (List.range w).map fun j => x.getLsbD (w - 1 - j) := by
  refine List.ext_getElem (by simp) fun j hj _ => ?_
  rw [Vector.getElem_toList, bin_toNat_getElem x j (by simpa using hj)]
  simp

end Sys2Proof.Machine

namespace Sys2Proof.Safety

open Sys2Proof.Machine

variable {s : State}

/-- In `DONE` the host reads cells `i` to `i + n - 1` as the operand's bits from `63 - i` down (R63, R88). -/
theorem MachineInv.memRead_of_done (h : MachineInv s) (hp : s.phase = .done) {i n : Nat} (hn : 1 ≤ n)
    (hi : i + n ≤ 64) :
    s.memRead i n = some ((List.range n).map fun j => charCode (s.opd.val.getLsbD (63 - (i + j)))) := by
  rw [memRead_eq s hn hi]
  refine congrArg some (List.map_congr_left fun j hj => ?_)
  have hj : j < n := List.mem_range.mp hj
  exact readCell_of_read (valid_iff.mpr hp) (h.read_of_done hp (by omega))

/-- A field of the operand whose most significant bit is in cell `i` is read there as its `bin` (R63, R113). -/
theorem MachineInv.memRead_field (h : MachineInv s) (hp : s.phase = .done) {i n : Nat} (hn : 1 ≤ n) (hi : i + n ≤ 64)
    (x : BitVec n) (hx : ∀ j < n, x.getLsbD j = s.opd.val.getLsbD (64 - (i + n) + j)) :
    s.memRead i n = some ((bin x.toNat n).toList.map charCode) := by
  rw [h.memRead_of_done hp hn hi, bin_toNat_toList, List.map_map]
  refine congrArg some (List.map_congr_left fun j hj => ?_)
  have hj : j < n := List.mem_range.mp hj
  rw [Function.comp_apply, hx _ (by omega), show 64 - (i + n) + (n - 1 - j) = 63 - (i + j) by omega]

end Sys2Proof.Safety
end

section
/-! PROOFS. The statements on `OUT` and the host's reads (20_memory). -/

namespace Sys2Proof.Proofs

open Sys2Proof.Machine Sys2Proof.Safety

/-- Settles O36: in `DONE` a step is a reset, an accepted command, or only moves the inputs on. -/
theorem resultIsStableUntilTheNextCommand : Obligations.ResultIsStableUntilTheNextCommand := by
  unfold Obligations.ResultIsStableUntilTheNextCommand
  intro s t hv hx
  rcases step_cases hx with ⟨hr, rfl⟩ | ⟨hr, -, hs, rfl⟩ | ⟨hr, -, hs, rfl⟩ | ⟨-, hb, -⟩
  · exact ⟨fun hr' => absurd hr (by simp [hr']), fun _ => ⟨rfl, rfl⟩⟩
  · exact ⟨fun _ hs' => absurd hs (by simp [hs']), fun _ => ⟨rfl, rfl⟩⟩
  · exact ⟨fun _ _ => ⟨hv, readCell_consume s⟩, fun hc => absurd hc (by simp [hr, hs])⟩
  · exact absurd hb (by simp [not_busy_of_valid hv])

/-- Settles O37: a reset and an accepted command empty `OUT`, and every instruction keeps its form. -/
theorem stepKeepsTheFormOfOut : Obligations.StepKeepsTheFormOfOut := by
  unfold Obligations.StepKeepsTheFormOfOut
  intro s t hwf hx
  rcases step_cases hx with ⟨-, rfl⟩ | ⟨-, -, -, rfl⟩ | ⟨-, -, -, rfl⟩ | ⟨-, -, hx⟩
  · exact Memory.wf_nil
  · exact Memory.wf_nil
  · exact hwf
  · exact exec_keeps_wf (s := s.consume) hwf hx

/-- Settles O42: cell `i` shows bit `63 - i` of the operand, and each field is a run of those bits. -/
theorem doneReadsAsTheOperand : Obligations.DoneReadsAsTheOperand := by
  unfold Obligations.DoneReadsAsTheOperand
  intro s h hp
  refine ⟨?_, h.memRead_of_done hp (by decide) (by decide), ?_, ?_⟩
  · simpa using h.memRead_of_done hp (i := 0) (n := 64) (by decide) (by decide)
  · exact h.memRead_field hp (by decide) (by decide) _ fun j hj => expField_getLsbD _ hj
  · exact h.memRead_field hp (by decide) (by decide) _ fun j hj => by simpa using mantField_getLsbD s.opd.val hj

/-- Settles O5: `MemRead` lists the single-cell reads, and the port shows one of them. -/
theorem memReadReadsCellsInOrder : Obligations.MemReadReadsCellsInOrder := by
  unfold Obligations.MemReadReadsCellsInOrder
  intro s i n
  refine ⟨fun hn hi => ⟨_, memRead_eq s hn hi, by simp, fun j hj => ?_⟩, rfl, ?_, ?_⟩
  · simp [hj]
  · exact readCell_of_read (c := false)
  · exact readCell_of_read (c := true)

end Sys2Proof.Proofs
end

section
/-! PROOFS. The decoder and the encoder are inverse to each other on raw words, bytes and table words (R60, R61, R64, R68). -/

namespace Sys2Proof

/-! ### The command format (R60) -/

/-- Bit 64 of a command is `start` (R60). -/
theorem decodeCommand_eq_ite (c : BitVec 65) :
    decodeCommand c = if 2 ^ 64 ≤ c.toNat then .encode (c.setWidth 64) else .nop (c.setWidth 64) := by
  have hstart : c.getLsbD 64 = decide (2 ^ 64 ≤ c.toNat) := by
    rw [← BitVec.msb_eq_getLsbD_last (x := c), BitVec.msb_eq_decide]
  simp only [decodeCommand, hstart, decide_eq_true_eq]

theorem encode_decodeCommand (c : BitVec 65) : encode (decodeCommand c) = ⟨.cmd, c.toNat⟩ := by
  have hc := c.isLt
  rw [decodeCommand_eq_ite]
  split
  · simp only [encode, BitVec.toNat_setWidth, RawWord.mk.injEq, true_and]; omega
  · simp only [encode, BitVec.toNat_setWidth, RawWord.mk.injEq, true_and]; omega

theorem decodeCommand_nop (w : Word) : decodeCommand (.ofNat 65 w.toNat) = .nop w := by
  have hw := w.isLt
  have hn : (BitVec.ofNat 65 w.toNat).toNat = w.toNat := by rw [BitVec.toNat_ofNat]; omega
  rw [decodeCommand_eq_ite, hn, if_neg (by omega)]
  exact congrArg Instr.nop (BitVec.eq_of_toNat_eq (by rw [BitVec.toNat_setWidth, hn]; omega))

theorem decodeCommand_encode (w : Word) : decodeCommand (.ofNat 65 (2 ^ 64 + w.toNat)) = .encode w := by
  have hw := w.isLt
  have hn : (BitVec.ofNat 65 (2 ^ 64 + w.toNat)).toNat = 2 ^ 64 + w.toNat := by rw [BitVec.toNat_ofNat]; omega
  rw [decodeCommand_eq_ite, hn, if_pos (by omega)]
  exact congrArg Instr.encode (BitVec.eq_of_toNat_eq (by rw [BitVec.toNat_setWidth, hn]; omega))

/-! ### The phase format (R61, R64) -/

/-- A code of at most 9 names the phase that has it, and a reserved code names none (R61, R64). -/
theorem phaseOfCode_map_code : ∀ c : BitVec 4, (phaseOfCode c).map Phase.code = if c.toNat ≤ 9 then some c else none := by
  decide

theorem code_of_phaseOfCode {c : BitVec 4} {p : Phase} (h : phaseOfCode c = some p) : p.code = c := by
  have hc := phaseOfCode_map_code c
  rw [h] at hc
  split at hc
  · exact Option.some.inj hc
  · cases hc

theorem phaseOfCode_of_le {c : BitVec 4} (h : c.toNat ≤ 9) : ∃ p, phaseOfCode c = some p := by
  have hc := phaseOfCode_map_code c
  rw [if_pos h, Option.map_eq_some_iff] at hc
  obtain ⟨p, hp, -⟩ := hc
  exact ⟨p, hp⟩

theorem phaseOfCode_of_reserved {c : BitVec 4} (h : 10 ≤ c.toNat) : phaseOfCode c = none := by
  have hc := phaseOfCode_map_code c
  rwa [if_neg (by omega), Option.map_eq_none_iff] at hc

theorem encode_phase_instr (p : Phase) : encode p.instr = ⟨.phase, p.code.toNat⟩ := by cases p <;> rfl

theorem encode_of_decodePhase {c : BitVec 4} {i : Instr} (h : decodePhase c = .ok i) : encode i = ⟨.phase, c.toNat⟩ := by
  unfold decodePhase at h
  split at h
  · rename_i p hp
    cases h
    rw [encode_phase_instr, code_of_phaseOfCode hp]
  · cases h

/-! ### Raw words -/

theorem decode_cmd {n : Nat} (h : n < 2 ^ 65) : decode ⟨.cmd, n⟩ = .ok (decodeCommand (.ofNat 65 n)) := by
  rw [decode, if_pos ((RawWord.fits_iff _).mpr h)]

theorem decode_phase {n : Nat} (h : n < 2 ^ 4) : decode ⟨.phase, n⟩ = decodePhase (.ofNat 4 n) := by
  rw [decode, if_pos ((RawWord.fits_iff _).mpr h)]

/-- A word that decodes fits its format (R64). -/
theorem fits_of_decode {r : RawWord} {i : Instr} (h : decode r = .ok i) : r.bits < 2 ^ r.format.width := by
  unfold decode at h
  split at h
  · rename_i hf; exact (RawWord.fits_iff r).mp hf
  · cases h

theorem encode_of_decode {r : RawWord} {i : Instr} (h : decode r = .ok i) : encode i = r := by
  obtain ⟨f, n⟩ := r
  cases f with
  | cmd =>
    have hn : n < 2 ^ 65 := fits_of_decode h
    rw [decode_cmd hn] at h
    cases h
    rw [encode_decodeCommand, BitVec.toNat_ofNat, Nat.mod_eq_of_lt hn]
  | phase =>
    have hn : n < 2 ^ 4 := fits_of_decode h
    rw [decode_phase hn] at h
    rw [encode_of_decodePhase h, BitVec.toNat_ofNat, Nat.mod_eq_of_lt hn]

theorem decode_encode (i : Instr) : decode (encode i) = .ok i := by
  cases i with
  | nop w =>
    rw [encode, decode_cmd (by have := w.isLt; omega), decodeCommand_nop]
  | encode w =>
    rw [encode, decode_cmd (by have := w.isLt; omega), decodeCommand_encode]
  | idle | sign | exps | bias | expe | msel | mext | asm | done | fault => rfl

/-- An instruction's encoding is a word of the instruction's own format. -/
theorem encode_format (i : Instr) : (encode i).format = i.format := by cases i <;> rfl

/-- Every encoding is an assigned word of its format (R60, R61, R64). -/
theorem encode_wf (i : Instr) : (encode i).wf = true := by
  have hw : Laws.EncodesWellFormed.Statement i := by
    cases i with
    | nop w => exact Laws.EncodesWellFormed.nop w
    | encode w => exact Laws.EncodesWellFormed.encode w
    | idle | sign | exps | bias | expe | msel | mext | asm | done | fault => exact ⟨rfl, rfl, rfl⟩
  obtain ⟨-, hwf, -⟩ := hw
  exact hwf

/-- Only assigned words decode (R64). -/
theorem wf_of_decode {r : RawWord} {i : Instr} (h : decode r = .ok i) : r.wf = true := by
  rw [← encode_of_decode h]; exact encode_wf i

/-- Every assigned word decodes (R64). -/
theorem decode_of_wf {r : RawWord} (h : r.wf = true) : ∃ i, decode r = .ok i := by
  rw [RawWord.wf, Bool.and_eq_true, RawWord.fits_iff] at h
  obtain ⟨hf, ha⟩ := h
  obtain ⟨f, n⟩ := r
  cases f with
  | cmd => exact ⟨_, decode_cmd hf⟩
  | phase =>
    have hn : n ≤ 9 := by simpa [RawWord.assigned] using ha
    obtain ⟨p, hp⟩ := phaseOfCode_of_le (c := .ofNat 4 n) (by rw [BitVec.toNat_ofNat]; omega)
    exact ⟨p.instr, by rw [decode_phase hf, decodePhase, hp]⟩

/-- The reserved codes are refused by name (R64). -/
theorem decode_reserved {n : Nat} (h10 : 10 ≤ n) (h15 : n ≤ 15) : decode ⟨.phase, n⟩ = .error (.reservedPhase n) := by
  have hc : (BitVec.ofNat 4 n).toNat = n := by rw [BitVec.toNat_ofNat]; omega
  rw [decode_phase (by omega), decodePhase, phaseOfCode_of_reserved (by omega), hc]

/-! ### Bytes and table words (entry 9) -/

/-- The bytes of a format are enough for its width. -/
theorem width_le_nbytes (f : Format) : f.width ≤ 8 * f.nbytes := by cases f <;> decide

/-- Decoding the bytes of a word that fits its format is decoding the word. -/
theorem decodeBytes_bytesOfNat (f : Format) {n : Nat} (h : n < 2 ^ f.width) :
    decodeBytes (bytesOfNat f.nbytes n) = decode ⟨f, n⟩ := by
  have hn : n < 256 ^ f.nbytes := by
    rw [show 256 = 2 ^ 8 from rfl, ← Nat.pow_mul]
    exact lt_of_lt_of_le h (Nat.pow_le_pow_right (by decide) (width_le_nbytes f))
  rw [decodeBytes, bytesOfNat_length, natOfBytes_bytesOfNat _ _ hn]
  cases f <;> rfl

/-- A table word of enough bits for a format is decoded in the format its size selects. -/
theorem decodeTableWord_eq {f : Format} {nbits n : Nat} (hf : tableFormat nbits = some f) (hw : f.width ≤ nbits)
    (h : n < 2 ^ f.width) : decodeTableWord nbits n = (decode ⟨f, n⟩).toOption := by
  have hn : n < 2 ^ nbits := lt_of_lt_of_le h (Nat.pow_le_pow_right (by decide) hw)
  rw [decodeTableWord, if_pos hn, hf]
  exact congrArg Except.toOption (decodeBytes_bytesOfNat f h)

theorem tableFormat_width (f : Format) : tableFormat f.width = some f := by cases f <;> rfl

theorem tableFormat_nbytes (f : Format) : tableFormat (8 * f.nbytes) = some f := by cases f <;> rfl

end Sys2Proof
end

section
/-! PROOFS. The values of operand words over the rationals (R57, R58). -/

namespace Sys2Proof.Safety

open Sys2Proof.Machine

theorem magRat_subnormal (w : Word) :
    magRat (BitVec.ofNat 2098 (mantField w).toNat) = (mantField w).toNat * (2 : ℚ) ^ (-1074 : ℤ) := by
  rw [magRat, subnormal_units]

/-- The magnitude of a normal word: `b - 1` units of scale from the field, 1074 from the unit (R57, R58). -/
theorem magRat_normal {w : Word} (h0 : (expField w).toNat ≠ 0) (h1 : (expField w).toNat ≤ 2046) :
    magRat (BitVec.ofNat 2098 ((2 ^ 52 + (mantField w).toNat) * 2 ^ ((expField w).toNat - 1))) =
      (2 ^ 52 + (mantField w).toNat) * (2 : ℚ) ^ (((expField w).toNat : ℤ) - 1075) := by
  have hscale : ((expField w).toNat : ℤ) - 1075 = ((expField w).toNat - 1 : ℕ) + (-1074 : ℤ) := by omega
  rw [magRat, normal_units h1, hscale, zpow_add₀ two_ne_zero, zpow_natCast]
  simp only [Nat.cast_mul, Nat.cast_add, Nat.cast_pow, Nat.cast_ofNat, mul_assoc]

end Sys2Proof.Safety
end

section
/-! PROOFS. What a step does to a hold phase and to `OPD`, and that every instruction completes. -/

namespace Sys2Proof.Machine

/-- In a hold phase the micro-operation leaves what the command did. -/
theorem andThen_hold {p : Phase} (h : holdPhase p = true) (o : Host.Outcome State Fault Refusal) :
    andThen o (exec p.instr) = o := by
  cases o with
  | next s => exact exec_hold h s
  | fault r => rfl
  | refused r => rfl

/-- A host that presents `ENCODE w` alone in a hold phase has it accepted, with nothing presented after it (R75). -/
theorem step_encode_of_hold {s : State} (hb : s.busy = false) (w : Word) :
    step { s with inputs := [PortIn.encode w] } = .next (accept w { s with inputs := [] }) :=
  step_of_hold (s := { s with inputs := [PortIn.encode w] }) rfl hb

/-- Every instruction completes (R79, R82). -/
theorem exec_completes (i : Instr) (s : State) : ∃ t, exec i s = .next t := by
  cases i <;> exact ⟨_, rfl⟩

/-- No micro-operation writes `OPD` (R35). -/
theorem opd_of_microOp {s t : State} (hx : exec s.phase.instr s = .next t) : t.opd = s.opd := by
  obtain ⟨hframe, -⟩ := Proofs.writesStayInTheWriteSets _ _ _ hx
  obtain ⟨hopd, -⟩ := hframe fun w => by cases s.phase <;> simp [Phase.instr]
  exact hopd

end Sys2Proof.Machine
end

section
/-! PROOFS. `ENC` spells the operand word (R80, R88). -/

namespace Sys2Proof.Machine

open Sys2Proof.Safety

variable {w : Word}

/-- The search of a whole operation exits at the operand's exponent (R107, R114). -/
theorem finalE_toInt {v : Number} (h : unpack w = .num v) : (finalE v.abs).toInt = exitE w := by
  have hr := exitE_range w
  have h0 : Config.eStart.toInt = 0 := rfl
  rcases Int.le_total 0 (exitE w) with hx | hx
  · exact searchLoop_up h _ _ (by omega) (by omega) (by omega)
  · exact searchLoop_down h _ _ (by omega) (by omega) (by omega)

/-- From the field shifted by `k` the doubling loop lists the field's bits from `51 - k` down (R124). -/
theorem doublingLoop_shiftLeft (x : BitVec 52) {n k : Nat} (h : k + n ≤ 52) :
    doublingLoop n (x <<< k) = (List.range n).map fun j => x.getLsbD (51 - (k + j)) := by
  induction n generalizing k with
  | zero => rfl
  | succ n ih =>
    rw [doublingLoop, double_shiftLeft_char x k (by omega), double_shiftLeft_rem, ih (by omega),
      List.range_succ_eq_map, List.map_cons, List.map_map]
    refine congrArg _ (List.map_congr_left fun j _ => ?_)
    rw [Function.comp_apply, Nat.add_right_comm, Nat.add_assoc]

/-- The doubling loop of a whole operation spells the initial remainder (R124). -/
theorem doublingLoop_eq_map_range (x : BitVec 52) :
    doublingLoop 52 x = (List.range 52).map fun j => x.getLsbD (51 - j) := by
  simpa using doublingLoop_shiftLeft x (n := 52) (k := 0) (by decide)

/-- The string `ENC` gives is the operand, most significant bit first (R88). -/
theorem encNumber_eq_bits {v : Number} (h : unpack w = .num v) (draw : Nat) :
    encNumber draw v = (List.range 64).map fun i => w.getLsbD (63 - i) := by
  have hexp : (bin (expField w).toNat 11).toList = (List.range 11).map fun j => w.getLsbD (63 - (1 + j)) := by
    rw [bin_toNat_toList]
    refine List.map_congr_left fun j hj => ?_
    have hj : j < 11 := List.mem_range.mp hj
    rw [expField_getLsbD w (by omega), show 52 + (11 - 1 - j) = 63 - (1 + j) by omega]
  have hmant : doublingLoop 52 (mantField w) = (List.range 52).map fun j => w.getLsbD (63 - (12 + j)) := by
    rw [doublingLoop_eq_map_range]
    refine List.map_congr_left fun j _ => ?_
    rw [mantField_getLsbD w (by omega), show 51 - j = 63 - (12 + j) by omega]
  simp only [encNumber, biasOf_exit (finalE_toInt h), selectRem_field h, sign_of_unpack h, hexp, hmant]
  rfl

theorem enc_of_not_nan (h : ¬ IsNaN w) (draw : Nat) :
    enc draw w = .string ((List.range 64).map fun i => w.getLsbD (63 - i)) := by
  obtain ⟨v, hv⟩ := num_of_not_nan h
  rw [enc, hv, ← encNumber_eq_bits hv draw]

theorem enc_of_nan (h : IsNaN w) (draw : Nat) : enc draw w = .fault .nanOperand := by
  rw [enc, (unpack_eq_nan_iff w).mpr h]

/-- The host reads the characters back from their codes (R52). -/
theorem mapM_charOfCode_map_charCode (cs : List Chr) : (cs.map charCode).mapM charOfCode = some cs := by
  induction cs with
  | nil => rfl
  | cons c cs ih => simp [ih]

end Sys2Proof.Machine

namespace Sys2Proof.Safety

open Sys2Proof.Machine

variable {s : State}

/-- At the end of an operation the host reports `ENC` of the operand (R81). -/
theorem MachineInv.report_eq_enc (h : MachineInv s) (hb : s.busy = false) (hidle : s.phase ≠ .idle) (draw : Nat) :
    s.report = some (enc draw s.opd.val) := by
  have hi := h.phase
  rcases hold_of_not_busy hb with hp | hp | hp
  · exact absurd hp hidle
  · simp only [PhaseInv, hp] at hi
    obtain ⟨hn, -⟩ := hi
    have hread : s.memRead 0 64 = some (((List.range 64).map fun i => s.opd.val.getLsbD (63 - i)).map charCode) := by
      rw [h.memRead_of_done hp (by decide) (by decide), List.map_map]
      simp only [Nat.zero_add]; rfl
    rw [State.report, if_pos (valid_iff.mpr hp), hread, Option.bind_some, mapM_charOfCode_map_charCode,
      enc_of_not_nan hn]
    rfl
  · simp only [PhaseInv, hp] at hi
    rw [enc_of_nan hi, State.report]
    simp [State.valid, State.faulted, hp, h.cause_eq]

end Sys2Proof.Safety
end

section
/-! PROOFS. How many steps an operation still takes, and waiting for its end (R67, R82, R168). -/

namespace Sys2Proof.Safety

open Sys2Proof.Machine

variable {s t : State}

/-- The steps from a state of the invariant to the hold phase, with no reset presented (R168). -/
def remainingSteps (s : State) : Nat :=
  match s.phase with
  | .idle | .done | .fault => 0
  | .sign => operationSteps s.opd.val - 1
  | .exps => (exitE s.opd.val - s.e.val.toInt).natAbs + 57
  | .bias => 56
  | .expe => 55
  | .msel => 54
  | .mext => 53 - s.k.val.toNat
  | .asm => 1

/-- An operation takes at most 1083 steps, of which the first is the acceptance (R82). -/
theorem MachineInv.remainingSteps_le (h : MachineInv s) : remainingSteps s ≤ 1083 := by
  have hr := exitE_range s.opd.val
  have hi := h.phase
  cases hp : s.phase with
  | sign => simp only [remainingSteps, hp, operationSteps]; split <;> omega
  | exps =>
    simp only [PhaseInv, hp] at hi
    obtain ⟨-, -, hrange⟩ := hi
    simp only [remainingSteps, hp]; omega
  | idle | bias | expe | msel | mext | asm | done | fault => simp only [remainingSteps, hp]; omega

/-- While `BUSY = 1` the operation has a step to go. -/
theorem MachineInv.remainingSteps_pos (h : MachineInv s) (hb : s.busy = true) : 0 < remainingSteps s := by
  have hi := h.phase
  cases hp : s.phase with
  | idle | done | fault => simp [State.busy, hp] at hb
  | sign => simp only [remainingSteps, hp, operationSteps]; split <;> omega
  | mext =>
    simp only [PhaseInv, hp] at hi
    obtain ⟨-, -, -, hk, -⟩ := hi
    simp only [remainingSteps, hp]; omega
  | exps | bias | expe | msel | asm => simp only [remainingSteps, hp]; omega

/-- `SIGN` is one step of the operation (R168). -/
theorem sign_progress (hp : s.phase = .sign) (hx : exec .sign s = .next t) :
    t.phase ≠ .idle ∧ remainingSteps t + 1 = remainingSteps s := by
  cases hu : unpack s.opd.val with
  | nan =>
    have hn := (unpack_eq_nan_iff _).mp hu
    rw [exec_sign_of_nan hu] at hx
    cases hx
    simp [remainingSteps, hp, operationSteps, if_pos hn]
  | num v =>
    have hn := not_nan_of_num hu
    rw [exec_sign_of_num hu] at hx
    cases hx
    have h0 : Config.eStart.toInt = 0 := rfl
    simp only [remainingSteps, hp, operationSteps, if_neg hn, reg_now_val, h0]
    exact ⟨by simp, by omega⟩

/-- `EXPS` brings `E` one nearer to its exit, or leaves the search (R107, R168). -/
theorem MachineInv.exps_progress (h : MachineInv s) (hp : s.phase = .exps) (hx : exec .exps s = .next t) :
    t.phase ≠ .idle ∧ remainingSteps t + 1 = remainingSteps s := by
  have hi := h.phase
  simp only [PhaseInv, hp] at hi
  obtain ⟨⟨-, v, hv, -, hm⟩, -, hrange⟩ := hi
  have hmv : s.mag.val = v.abs := by rw [hm, reg_now_val]
  have hexit := exitE_range s.opd.val
  rcases lt_trichotomy s.e.val.toInt (exitE s.opd.val) with hlt | heq | hgt
  · rw [exec_exps_of_some (hmv ▸ searchStep_up hv (by omega) hlt)] at hx
    cases hx
    simp only [remainingSteps, hp, reg_now_val, toInt_add_one (e := s.e.val) (by omega)]
    exact ⟨by simp, by omega⟩
  · rw [exec_exps_of_none (hmv ▸ searchStep_exit hv heq)] at hx
    cases hx
    simp [remainingSteps, hp, heq]
  · rw [exec_exps_of_some (hmv ▸ searchStep_down hv (by omega) hgt)] at hx
    cases hx
    simp only [remainingSteps, hp, reg_now_val, toInt_sub_one (e := s.e.val) (by omega)]
    exact ⟨by simp, by omega⟩

/-- `MEXT` counts up to the last character (R122, R168). -/
theorem MachineInv.mext_progress (h : MachineInv s) (hp : s.phase = .mext) (hx : exec .mext s = .next t) :
    t.phase ≠ .idle ∧ remainingSteps t + 1 = remainingSteps s := by
  have hi := h.phase
  simp only [PhaseInv, hp] at hi
  obtain ⟨-, -, -, hk, -⟩ := hi
  obtain ⟨-, hnext⟩ := nextK_of_le hk s.draw
  rw [exec_mext] at hx
  cases hx
  by_cases hlast : s.k.val.toNat = 51
  · simp [remainingSteps, hp, hlast]
  · simp only [remainingSteps, hp, if_neg hlast, reg_now_val, hnext]
    exact ⟨by simp, by omega⟩

/-- The micro-operation of every busy phase is one step of the operation. -/
theorem MachineInv.microOp_progress (h : MachineInv s) (hb : s.busy = true) (hx : exec s.phase.instr s = .next t) :
    t.phase ≠ .idle ∧ remainingSteps t + 1 = remainingSteps s := by
  cases hp : s.phase with
  | idle | done | fault => simp [State.busy, hp] at hb
  | sign => rw [hp] at hx; exact sign_progress hp hx
  | exps => rw [hp] at hx; exact h.exps_progress hp hx
  | mext => rw [hp] at hx; exact h.mext_progress hp hx
  | bias | expe | msel | asm => rw [hp] at hx; cases hx; simp [remainingSteps, hp]

/-- The invariant says nothing of the inputs. -/
theorem MachineInv.withInputs (h : MachineInv s) (ps : List PortIn) : MachineInv { s with inputs := ps } :=
  ⟨h.cause, h.window, h.form, h.phase⟩

/-- A busy step without reset is one step of the operation on the same operand. -/
theorem MachineInv.busy_step (h : MachineInv s) (hr : s.port.rst = false) (hb : s.busy = true) :
    ∃ t, Machine.step s = .next t ∧ MachineInv t ∧ t.opd = s.opd ∧ t.phase ≠ .idle ∧
      remainingSteps t + 1 = remainingSteps s := by
  obtain ⟨t, hx⟩ := exec_completes s.phase.instr s.consume
  have hs : Machine.step s = .next t := by rw [step_of_busy hr hb, hx]
  exact ⟨t, hs, h.step hs, opd_of_microOp (s := s.consume) hx, h.consume.microOp_progress (by simpa using hb) hx⟩

/-- Enough waiting ends the operation under way, on its own operand (R67, R82). -/
theorem MachineInv.waitIdle_ends (h : MachineInv s) {n : Nat} (hn : remainingSteps s ≤ n) :
    ∃ t, waitIdle n s = .next t ∧ MachineInv t ∧ t.busy = false ∧ t.opd = s.opd ∧ (s.phase ≠ .idle → t.phase ≠ .idle) := by
  induction n generalizing s with
  | zero =>
    have hb : s.busy = false := by
      rw [← Bool.not_eq_true]
      intro hb
      have := h.remainingSteps_pos hb
      omega
    exact ⟨s, rfl, h, hb, rfl, id⟩
  | succ n ih =>
    cases hb : s.busy with
    | false => exact ⟨s, by simp [waitIdle, hb], h, hb, rfl, id⟩
    | true =>
      obtain ⟨u, hu, hinv, hopd, hidle, hrem⟩ := (h.withInputs []).busy_step rfl hb
      have hs : remainingSteps { s with inputs := [] } = remainingSteps s := rfl
      obtain ⟨t, ht, hinv', hb', hopd', hidle'⟩ := ih hinv (by omega)
      refine ⟨t, ?_, hinv', hb', hopd'.trans hopd, fun _ => hidle' hidle⟩
      rw [waitIdle, if_pos hb, hu, andThen_next, ht]

end Sys2Proof.Safety
end

section
/-! PROOFS. The statements on encoding and decoding (30_encoding). -/

namespace Sys2Proof.Proofs

open Sys2Proof.Machine Sys2Proof.Safety

/-- Settles O27: bytes and table words of an encoding decode as the raw word does, and that gives the instruction back. -/
theorem decodeOfEncodeIsTheInstruction : Obligations.DecodeOfEncodeIsTheInstruction := by
  unfold Obligations.DecodeOfEncodeIsTheInstruction
  intro i
  have hword : (⟨i.format, (encode i).bits⟩ : RawWord) = encode i := by rw [← encode_format]
  have hdec : decode ⟨i.format, (encode i).bits⟩ = .ok i := by rw [hword, decode_encode]
  have hfits : (encode i).bits < 2 ^ i.format.width := fits_of_decode hdec
  refine ⟨encode_wf i, decode_encode i, ?_, ?_, ?_⟩
  · rw [encodeBytes, decodeBytes_bytesOfNat _ hfits, hdec]
  · rw [decodeTableWord_eq (tableFormat_width _) le_rfl hfits, hdec]; rfl
  · rw [decodeTableWord_eq (tableFormat_nbytes _) (width_le_nbytes _) hfits, hdec]; rfl

/-- Settles O11, class by class. -/
theorem unpackGivesTheValueOfEachClass : Obligations.UnpackGivesTheValueOfEachClass := by
  unfold Obligations.UnpackGivesTheValueOfEachClass
  intro w
  simp only [← expField_toNat, ← mantField_toNat]
  refine ⟨fun h => ?_, fun h1 h2 => ?_, unpack_inf, fun h1 h2 => (unpack_eq_nan_iff w).mpr ⟨h1, h2⟩⟩
  · exact ⟨_, unpack_subnormal h, magRat_subnormal w⟩
  · have h0 : (expField w).toNat ≠ 0 := by omega
    exact ⟨_, unpack_normal h0 h2, magRat_normal h0 h2⟩

/-- Settles O28: the command space is full, and of the phase space the codes up to 9 are assigned. -/
theorem exactlyTheAssignedWordsDecode : Obligations.ExactlyTheAssignedWordsDecode := by
  unfold Obligations.ExactlyTheAssignedWordsDecode
  refine fun r => ⟨⟨fun ⟨_, h⟩ => wf_of_decode h, decode_of_wf⟩, fun _ => encode_of_decode, ?_⟩
  obtain ⟨f, n⟩ := r
  rintro rfl h10 h15
  exact decode_reserved h10 h15

/-- Settles O48: the first wait ends any operation under way, so that the command is accepted, and the second wait ends
the operation on `w`. -/
theorem callEncodeReportsEnc : Obligations.CallEncodeReportsEnc := by
  unfold Obligations.CallEncodeReportsEnc
  intro s w h
  obtain ⟨u, hu, -, hb, -, -⟩ := h.waitIdle_ends h.remainingSteps_le
  have hacc := machineInv_accept w { u with inputs := [] }
  obtain ⟨t, ht, hinv, hbt, hopd, hidle⟩ := hacc.waitIdle_ends hacc.remainingSteps_le
  refine ⟨t, ?_, hinv, ?_⟩
  · rw [callEncode, hu, andThen_next, step_encode_of_hold hb, andThen_next, ht]
  · rw [hinv.report_eq_enc hbt (hidle (by simp)) 0, hopd]; rfl

/-- Settles O29: each phase code is decoded by its own row, and each command by its bit 64. -/
theorem wordsOfTheCodeTablesDecode : Obligations.WordsOfTheCodeTablesDecode := by
  unfold Obligations.WordsOfTheCodeTablesDecode
  exact ⟨decodeCommand_encode 0x3FF0000000000000, decodeCommand_nop 5, decodePhase_code .idle, decodePhase_code .sign,
    decodePhase_code .exps, decodePhase_code .bias, decodePhase_code .expe, decodePhase_code .msel,
    decodePhase_code .mext, decodePhase_code .asm, decodePhase_code .done, decodePhase_code .fault⟩

/-- Settles O30: in a hold phase the micro-operation writes nothing, and in a busy phase the command does not. -/
theorem stepRunsTheDecodedInstructions : Obligations.StepRunsTheDecodedInstructions := by
  unfold Obligations.StepRunsTheDecodedInstructions
  intro s i hr hi
  rw [decodePhase_code] at hi
  cases hi
  have hstep := step_of_run hr
  have hcmd := decodeCommand_command s.port
  refine ⟨hstep, fun hb => ?_, step_of_busy hr, fun hs => by rw [hcmd, if_pos hs], fun hs => by simp [hcmd, hs]⟩
  have hh : holdPhase s.phase = true := by simpa [hb] using (busy_eq_not_hold s).symm
  rw [hstep, andThen_hold hh]; rfl

end Sys2Proof.Proofs
end

section
/-! PROOFS. What a step does by the phase it starts in, for every port, and where it leaves the phase (R78, R79). -/

namespace Sys2Proof.Machine

open Sys2Proof.Safety

variable {s t : State}

/-- A reset step leaves no register holding a value (R36, R160). -/
theorem nothingHeld_afterReset (s : State) : NothingHeld (afterReset s) := by
  obtain ⟨-, -, -, -, -, -, h⟩ := Proofs.resetIsIdleWithNothingHeld
  exact h

theorem busy_eq_false_of_mem (h : s.phase ∈ [Phase.idle, .done, .fault]) : s.busy = false := by
  rw [busy_eq_not_hold]
  simp only [List.mem_cons, List.not_mem_nil, or_false] at h
  rcases h with h | h | h <;> rw [h] <;> rfl

theorem exec_encode_of_hold (hb : s.busy = false) (w : Word) : exec (.encode w) s = .next (accept w s) := by
  rw [exec_encode, hb]; rfl

/-- `ENCODE` presented in a hold phase is accepted (R75). -/
theorem step_of_hold_encode (hr : s.port.rst = false) (hb : s.busy = false) (hs : s.port.start = true) :
    step s = .next (accept s.port.operand s.consume) := by
  rw [step_of_hold hr hb, if_pos hs]

/-- `NOP` presented in a hold phase only moves the inputs on (R76). -/
theorem step_of_hold_nop (hr : s.port.rst = false) (hb : s.busy = false) (hs : s.port.start = false) :
    step s = .next s.consume := by
  rw [step_of_hold hr hb, hs]; rfl

/-- The step function is total (R79). -/
theorem step_completes (s : State) : ∃ t, step s = .next t := by
  cases hr : s.port.rst with
  | true => exact ⟨_, step_of_rst hr⟩
  | false =>
    cases hb : s.busy with
    | false => exact ⟨_, step_of_hold hr hb⟩
    | true => rw [step_of_busy hr hb]; exact exec_completes _ _

/-- A step in the busy phase `p` with `rst = 0` is the micro-operation of `p`. -/
theorem step_of_phase {p : Phase} (hr : s.port.rst = false) (hp : s.phase = p) (hold : holdPhase p = false) :
    step s = exec p.instr s.consume := by
  subst hp
  exact step_of_busy hr (by rw [busy_eq_not_hold, hold]; rfl)

/-- Every step moves the inputs on by one step. -/
theorem inputs_of_step (h : step s = .next t) : t.inputs = s.inputs.tail := by
  rcases step_cases h with ⟨-, rfl⟩ | ⟨-, -, -, rfl⟩ | ⟨-, -, -, rfl⟩ | ⟨-, -, hx⟩
  · rfl
  · rfl
  · rfl
  · obtain ⟨-, -, -, -, -, -, -, -, hin⟩ := Proofs.writesStayInTheWriteSets _ _ _ hx
    exact hin

/-! ### The edges of the phase graph -/

/-- `SIGN` leaves to `FAULT` on a NaN and to `EXPS` on any other word (R100). -/
theorem phase_of_sign (hx : exec .sign s = .next t) : t.phase = if IsNaN s.opd.val then .fault else .exps := by
  cases hu : unpack s.opd.val with
  | nan =>
    rw [exec_sign_of_nan hu] at hx
    cases hx
    rw [if_pos ((unpack_eq_nan_iff _).mp hu), raiseFault_phase]
  | num v =>
    rw [exec_sign_of_num hu] at hx
    cases hx
    rw [if_neg (not_nan_of_num hu)]

/-- `EXPS` stays while one of the two tests moves `E`, and leaves to `BIAS` otherwise (R106). -/
theorem phase_of_exps (hp : s.phase = .exps) (hx : exec .exps s = .next t) :
    t.phase =
      if (fracGeOne s.mag.val s.e.val.toInt = true ∧ s.e.val.toInt < 1024) ∨
        (fracNeg s.mag.val s.e.val.toInt = true ∧ s.e.val.toInt > -1023) then .exps else .bias := by
  rcases searchStep_spec s.mag.val s.e.val with ⟨hge, hlt, he⟩ | ⟨-, hneg, hgt, he⟩ | ⟨hup, hdown, he⟩
  · rw [exec_exps_of_some he] at hx
    cases hx
    rw [if_pos (.inl ⟨hge, hlt⟩), ← hp]
  · rw [exec_exps_of_some he] at hx
    cases hx
    rw [if_pos (.inr ⟨hneg, hgt⟩), ← hp]
  · rw [exec_exps_of_none he] at hx
    cases hx
    rw [if_neg (not_or.mpr ⟨hup, hdown⟩)]

/-- `MEXT` stays until it has emitted the last character, and leaves to `ASM` (R122). -/
theorem phase_of_mext (hp : s.phase = .mext) (hx : exec .mext s = .next t) :
    t.phase = if s.k.val.toNat = 51 then .asm else .mext := by
  rw [exec_mext] at hx
  cases hx
  rw [← hp]

/-- `PHASE` after the micro-operation of a busy phase (R78). -/
theorem phase_of_microOp (hr : s.port.rst = false) (hb : s.busy = true) (hx : exec s.phase.instr s.consume = .next t) :
    t.phase = nextPhase s := by
  rw [nextPhase, hr]
  cases hp : s.phase with
  | idle | done | fault => simp [State.busy, hp] at hb
  | sign => rw [hp] at hx; exact phase_of_sign (s := s.consume) hx
  | exps => rw [hp] at hx; exact phase_of_exps (s := s.consume) hp hx
  | mext => rw [hp] at hx; exact phase_of_mext (s := s.consume) hp hx
  | bias | expe | msel | asm => rw [hp] at hx; cases hx; rfl

/-- `PHASE` after a step of a hold phase (R78). -/
theorem nextPhase_of_hold (hr : s.port.rst = false) (hb : s.busy = false) :
    nextPhase s = if s.port.start then .sign else s.phase := by
  rcases hold_of_not_busy hb with hp | hp | hp <;> rw [nextPhase, hr, hp] <;> rfl

end Sys2Proof.Machine
end

section
/-! PROOFS. Flipping the sign bit of an operand word, and the string `ENC` gives by its first character (R86, R87). -/

namespace Sys2Proof.Machine

open Sys2Proof.Safety

theorem getLsbD_flipSign (w : Word) (i : Nat) :
    (w ^^^ 0x8000000000000000#64).getLsbD i = if i = 63 then !w.getLsbD 63 else w.getLsbD i := by
  have hmask : (0x8000000000000000#64).getLsbD i = decide (i = 63) := by
    show (BitVec.twoPow 64 63).getLsbD i = _
    simp [BitVec.getLsbD_twoPow, eq_comm]
  rw [BitVec.getLsbD_xor, hmask]
  split
  · rename_i h; simp [h]
  · rename_i h; simp [h]

theorem expField_flipSign (w : Word) : expField (w ^^^ 0x8000000000000000#64) = expField w :=
  BitVec.eq_of_getLsbD_eq fun j hj => by
    rw [expField_getLsbD _ hj, expField_getLsbD _ hj, getLsbD_flipSign, if_neg (by omega)]

theorem mantField_flipSign (w : Word) : mantField (w ^^^ 0x8000000000000000#64) = mantField w :=
  BitVec.eq_of_getLsbD_eq fun j hj => by
    rw [mantField_getLsbD _ hj, mantField_getLsbD _ hj, getLsbD_flipSign, if_neg (by omega)]

/-- `ENC` of a word that is not NaN is its sign bit and then its 63 other bits. -/
theorem enc_of_not_nan_cons {w : Word} (h : ¬ IsNaN w) (draw : Nat) :
    enc draw w = .string (w.getLsbD 63 :: (List.range 63).map fun i => w.getLsbD (62 - i)) := by
  rw [enc_of_not_nan h]; rfl

/-- `ENC` of the word with its sign bit flipped differs in the first character alone (R87). -/
theorem enc_flipSign {w : Word} (h : ¬ IsNaN w) (draw : Nat) :
    enc draw (w ^^^ 0x8000000000000000#64) =
      .string ((!w.getLsbD 63) :: (List.range 63).map fun i => w.getLsbD (62 - i)) := by
  have hn : ¬ IsNaN (w ^^^ 0x8000000000000000#64) := by
    rwa [IsNaN, expField_flipSign, mantField_flipSign]
  have hrest : ∀ i ∈ List.range 63, (w ^^^ 0x8000000000000000#64).getLsbD (62 - i) = w.getLsbD (62 - i) :=
    fun i _ => by rw [getLsbD_flipSign, if_neg (by omega)]
  rw [enc_of_not_nan_cons hn, List.map_congr_left hrest, getLsbD_flipSign, if_pos rfl]

end Sys2Proof.Machine
end

section
/-! PROOFS. A run of an operation: how far it has come after `n` steps, and what its end shows (R81, R82, R168). -/

namespace Sys2Proof.Safety

open Sys2Proof.Machine

variable {s : State}

theorem remainingSteps_of_hold (hb : s.busy = false) : remainingSteps s = 0 := by
  rcases hold_of_not_busy hb with hp | hp | hp <;> simp only [remainingSteps, hp]

/-- `BUSY` is 1 exactly while the operation has a step to go. -/
theorem MachineInv.busy_iff (h : MachineInv s) : s.busy = true ↔ 0 < remainingSteps s := by
  refine ⟨h.remainingSteps_pos, fun hpos => ?_⟩
  by_contra hb
  rw [remainingSteps_of_hold (by simpa using hb)] at hpos
  exact absurd hpos (by decide)

/-- With no reset presented, `n` steps of an operation under way bring it `n` steps nearer to its end, on the same operand,
whatever commands are presented (R163, R168). -/
theorem MachineInv.run_operation (h : MachineInv s) (hidle : s.phase ≠ .idle) (hr : ∀ q ∈ s.inputs, q.rst = false)
    {n : Nat} (hn : n ≤ remainingSteps s) :
    ∃ t, Host.Core.run core n s = .next t ∧ MachineInv t ∧ t.opd = s.opd ∧ t.phase ≠ .idle ∧
      remainingSteps t + n = remainingSteps s := by
  induction n generalizing s with
  | zero => exact ⟨s, rfl, h, rfl, hidle, rfl⟩
  | succ n ih =>
    obtain ⟨u, hu, hinv, hopd, huidle, hrem⟩ := h.busy_step (port_rst_of_inputs hr) (h.busy_iff.mpr (by omega))
    have hru : ∀ q ∈ u.inputs, q.rst = false := fun q hq => hr q (List.mem_of_mem_tail (inputs_of_step hu ▸ hq))
    obtain ⟨t, ht, hinv', hopd', htidle, hrem'⟩ := ih hinv huidle hru (by omega)
    exact ⟨t, (run_succ n hu).trans ht, hinv', hopd'.trans hopd, htidle, by omega⟩

theorem operationSteps_pos (w : Word) : 0 < operationSteps w := by
  rw [operationSteps]; split <;> omega

/-- An operation takes at most 1083 steps (R82). -/
theorem operationSteps_le (w : Word) : operationSteps w ≤ 1083 := by
  have hr := exitE_range w
  rw [operationSteps]; split <;> omega

/-- After its acceptance and `n` more steps an operation has come `n + 1` steps, the acceptance counted (R168). -/
theorem run_accepted (hr : s.port.rst = false) (hb : s.busy = false) (hs : s.port.start = true)
    (hin : ∀ q ∈ s.inputs.tail, q.rst = false) {n : Nat} (hn : n < operationSteps s.port.operand) :
    ∃ t, Host.Core.run core (n + 1) s = .next t ∧ MachineInv t ∧ t.opd = .now s.port.operand ∧ t.phase ≠ .idle ∧
      remainingSteps t + (n + 1) = operationSteps s.port.operand := by
  have hrem : remainingSteps (accept s.port.operand s.consume) = operationSteps s.port.operand - 1 := rfl
  obtain ⟨t, ht, hinv, hopd, hidle, hremt⟩ :=
    (machineInv_accept s.port.operand s.consume).run_operation (by simp) hin (n := n) (by omega)
  exact ⟨t, (run_succ n (step_of_hold_encode hr hb hs)).trans ht, hinv, hopd, hidle, by omega⟩

/-- An operation on a word that is not NaN ends in `DONE`, and the host reads `ENC` of the operand (R81). -/
theorem MachineInv.end_of_not_nan (h : MachineInv s) (hb : s.busy = false) (hidle : s.phase ≠ .idle)
    (hn : ¬ IsNaN s.opd.val) (draw : Nat) :
    s.phase = .done ∧ s.cause = .none ∧
      ∃ cs, enc draw s.opd.val = .string cs ∧ s.memRead 0 64 = some (cs.map charCode) := by
  have hi := h.phase
  rcases hold_of_not_busy hb with hp | hp | hp
  · exact absurd hp hidle
  · refine ⟨hp, by simp [h.cause_eq, hp], _, enc_of_not_nan hn draw, ?_⟩
    rw [h.memRead_of_done hp (by decide) (by decide), List.map_map]
    simp only [Nat.zero_add]; rfl
  · simp only [PhaseInv, hp] at hi
    exact absurd hi hn

/-- An operation on a NaN ends in `FAULT` with no value in `OUT` (R81). -/
theorem MachineInv.end_of_nan (h : MachineInv s) (hb : s.busy = false) (hidle : s.phase ≠ .idle) (hn : IsNaN s.opd.val) :
    s.phase = .fault ∧ s.cause = .nanOperand ∧ ∀ i, s.out.read i = none := by
  have hi := h.phase
  rcases hold_of_not_busy hb with hp | hp | hp
  · exact absurd hp hidle
  · simp only [PhaseInv, hp] at hi
    exact absurd hn hi.1
  · exact ⟨hp, h.cause.mpr hp, h.read_of_not_done (by simp [hp])⟩

end Sys2Proof.Safety
end

section
/-! PROOFS. The statements on the commands, the step function and whole operations (40_command). -/

namespace Sys2Proof.Proofs

open Sys2Proof.Machine Sys2Proof.Safety

/-- Settles O31: reset wins, a hold phase performs the command, and a busy phase its own micro-operation. -/
theorem stepFollowsTheStepFunction : Obligations.StepFollowsTheStepFunction := by
  unfold Obligations.StepFollowsTheStepFunction
  refine fun s => ⟨step_completes s, fun hr => ?_, fun hr => ⟨fun hp hs => ?_, fun hp hs => ?_, ?_⟩⟩
  · exact ⟨_, step_of_rst hr, rfl, rfl, nothingHeld_afterReset s⟩
  · have hb := busy_eq_false_of_mem hp
    rw [step_of_hold_encode hr hb hs]
    exact (exec_encode_of_hold (s := s.consume) hb _).symm
  · exact step_of_hold_nop hr (busy_eq_false_of_mem hp) hs
  · exact ⟨(step_of_phase hr · rfl), (step_of_phase hr · rfl), (step_of_phase hr · rfl), (step_of_phase hr · rfl),
      (step_of_phase hr · rfl), (step_of_phase hr · rfl), (step_of_phase hr · rfl)⟩

/-- Settles O32, by everything a step can do. -/
theorem phaseMovesAlongTheGraph : Obligations.PhaseMovesAlongTheGraph := by
  unfold Obligations.PhaseMovesAlongTheGraph
  intro s t h
  rcases step_cases h with ⟨hr, rfl⟩ | ⟨hr, hb, hs, rfl⟩ | ⟨hr, hb, hs, rfl⟩ | ⟨hr, hb, hx⟩
  · rw [nextPhase, if_pos hr]; rfl
  · rw [nextPhase_of_hold hr hb, if_pos hs, accept_phase]
  · rw [nextPhase_of_hold hr hb, hs]; rfl
  · exact phase_of_microOp hr hb hx

/-- Settles O44: each of the three parts of the string spells its field of the operand. -/
theorem encSpellsTheOperand : Obligations.EncSpellsTheOperand := by
  unfold Obligations.EncSpellsTheOperand
  exact fun draw w h => enc_of_not_nan h draw

/-- Settles O45: the string is the operand's own bits and the fault a constant, so `draw` shows in neither. -/
theorem encIsTotalOnOperandWords : Obligations.EncIsTotalOnOperandWords := by
  unfold Obligations.EncIsTotalOnOperandWords
  refine fun d₁ d₂ w => ⟨?_, fun h => enc_of_nan h d₁, fun h => ⟨_, enc_of_not_nan h d₁, by simp⟩⟩
  by_cases h : IsNaN w
  · rw [enc_of_nan h, enc_of_nan h]
  · rw [enc_of_not_nan h, enc_of_not_nan h]

/-- Settles O46: the two sign predicates give bit 63, and no other character shows that bit. -/
theorem signShowsOnlyInTheFirstCharacter : Obligations.SignShowsOnlyInTheFirstCharacter := by
  unfold Obligations.SignShowsOnlyInTheFirstCharacter
  intro draw w v h
  have hn := not_nan_of_num h
  have hsign : (v.isNegative || v.isNegativeZero) = w.getLsbD 63 := sign_of_unpack h
  rw [hsign]
  exact ⟨_, enc_of_not_nan_cons hn draw, enc_flipSign hn draw⟩

/-- Settles O47: acceptance meets the invariant, and each step after it is one step of the operation on its own operand. -/
theorem operationComputesEnc : Obligations.OperationComputesEnc := by
  unfold Obligations.OperationComputesEnc
  intro s p rest hb hin hrst hstart hrest
  have hport : s.port = p := by rw [State.port, hin]; rfl
  subst hport
  have htail : ∀ q ∈ s.inputs.tail, q.rst = false := by rw [hin]; exact hrest
  have hrun := fun n => run_accepted (n := n) hrst hb hstart htail
  have hpos := operationSteps_pos s.port.operand
  refine ⟨operationSteps_le _, fun j hj hlt => ?_, ?_⟩
  · obtain ⟨n, rfl⟩ := Nat.exists_eq_add_of_le' hj
    obtain ⟨t, ht, hinv, -, -, hrem⟩ := hrun n (by omega)
    exact ⟨t, ht, hinv.busy_iff.mpr (by omega)⟩
  · obtain ⟨n, hsteps⟩ := Nat.exists_eq_add_of_le' hpos
    obtain ⟨t, ht, hinv, hopd, hidle, hrem⟩ := hrun n (by omega)
    have hbt : t.busy = false := by
      rw [← Bool.not_eq_true, hinv.busy_iff]; omega
    have hval : t.opd.val = s.port.operand := by rw [hopd, reg_now_val]
    rw [hsteps, ← hval]
    exact ⟨t, ht, hbt, hinv.report_eq_enc hbt hidle 0, fun hn => hinv.end_of_not_nan hbt hidle hn 0,
      hinv.end_of_nan hbt hidle⟩

/-- Settles O6: what an accepted `ENCODE` writes is `accept`, field by field. -/
theorem encodeIsAcceptedExactlyWhenNotBusy : Obligations.EncodeIsAcceptedExactlyWhenNotBusy := by
  unfold Obligations.EncodeIsAcceptedExactlyWhenNotBusy
  intro w s
  exact ⟨fun hb => exec_encode_of_hold hb w, fun hb => by rw [exec_encode, if_pos hb]⟩

/-- Settles O7: each of the four meanings is the state itself. -/
theorem nopAndHoldPhasesWriteNothing : Obligations.NopAndHoldPhasesWriteNothing := by
  unfold Obligations.NopAndHoldPhasesWriteNothing
  exact fun w s => ⟨rfl, exec_hold (p := .idle) rfl s, exec_hold (p := .done) rfl s, exec_hold (p := .fault) rfl s⟩

/-- Settles O8: the step accepts the command or moves the inputs on, and acceptance writes only what R75 names. -/
theorem holdStepPerformsTheCommand : Obligations.HoldStepPerformsTheCommand := by
  unfold Obligations.HoldStepPerformsTheCommand
  refine fun s hb hr => ⟨fun hs => ⟨_, step_of_hold_encode hr hb hs, ?_⟩, step_of_hold_nop hr hb⟩
  simp

/-- Settles O26, row by row of the opcode table. -/
theorem everyInstructionCompletes : Obligations.EveryInstructionCompletes := by
  unfold Obligations.EveryInstructionCompletes
  exact exec_completes

end Sys2Proof.Proofs
end

section
/-! PROOFS. The sign predicates and the magnitude over the rationals (R23, R101). -/

namespace Sys2Proof.Safety

open Sys2Proof.Machine

theorem magRat_pos_iff (n : BitVec 2098) : 0 < magRat n ↔ 0 < n.toNat := by
  rw [magRat, mul_pos_iff_of_pos_right (zpow_pos two_pos _), Nat.cast_pos]

theorem magRat_eq_zero_iff (n : BitVec 2098) : magRat n = 0 ↔ n.toNat = 0 := by
  rw [magRat, mul_eq_zero_iff_right (zpow_ne_zero _ two_ne_zero), Nat.cast_eq_zero]

/-- A finite value is below zero when its sign is 1 and its magnitude is not zero (R101). -/
theorem isNegative_fin_iff (s : Bool) (n : BitVec 2098) :
    (Number.fin s n).isNegative = true ↔ s = true ∧ 0 < magRat n := by
  rw [Number.isNegative, Bool.and_eq_true, decide_eq_true_eq, magRat_pos_iff]

/-- Of the finite values only negative zero has negative infinity as its reciprocal (R101). -/
theorem isNegativeZero_fin_iff (s : Bool) (n : BitVec 2098) :
    (Number.fin s n).isNegativeZero = true ↔ s = true ∧ magRat n = 0 := by
  rw [Number.isNegativeZero, Bool.and_eq_true, decide_eq_true_eq, magRat_eq_zero_iff]

end Sys2Proof.Safety
end

section
/-! PROOFS. The statements on the sign detector (41_sign). -/

namespace Sys2Proof.Proofs

open Sys2Proof.Machine Sys2Proof.Safety

/-- Settles O10: the infinities by definition, the finite values over the rationals, bit 63 by the sign field of the word. -/
theorem signPredicatesGiveBit63 : Obligations.SignPredicatesGiveBit63 := by
  unfold Obligations.SignPredicatesGiveBit63
  exact ⟨isNegative_fin_iff, fun _ => Iff.rfl, isNegativeZero_fin_iff, fun _ => rfl, fun _ _ => sign_of_unpack⟩

/-- Settles O9: the two outcomes of `SIGN`, with `raiseFault` and the sign bit written out. -/
theorem signClassifiesTheOperand : Obligations.SignClassifiesTheOperand := by
  unfold Obligations.SignClassifiesTheOperand
  exact ⟨fun _ _ => rfl, fun _ => rfl, fun _ => ⟨exec_sign_of_nan, fun _ => exec_sign_of_num⟩⟩

end Sys2Proof.Proofs
end

section
/-! PROOFS. The search over the rationals, the bias and the digits of `bin` (R105, R106, R109, R113). -/

namespace Sys2Proof.Machine

variable {s : State}

/-! ### Powers of two, the bias and `bin` -/

/-- A natural number compared with a power of two: where the exponent is negative the power lies between 0 and 1, and
compares with naturals as 1 does. -/
theorem two_zpow_le_natCast_iff (k : ℤ) (n : ℕ) : (2 : ℚ) ^ k ≤ n ↔ 2 ^ k.toNat ≤ n := by
  rcases le_total 0 k with hk | hk
  · obtain ⟨j, rfl⟩ := Int.eq_ofNat_of_zero_le hk
    rw [zpow_natCast, Int.toNat_natCast]
    exact_mod_cast Iff.rfl
  · have hone : (2 : ℚ) ^ k ≤ 1 := zpow_le_one_of_nonpos₀ one_le_two hk
    have hpos : (0 : ℚ) < 2 ^ k := zpow_pos two_pos k
    rw [Int.toNat_of_nonpos hk, pow_zero, Nat.one_le_iff_ne_zero]
    refine ⟨fun h hn => ?_, fun hn => hone.trans (by exact_mod_cast Nat.one_le_iff_ne_zero.mpr hn)⟩
    rw [hn, Nat.cast_zero] at h
    exact absurd hpos (not_lt.mpr h)

/-- The biased exponent of an `E` of at most 1024 fits `BEXP`, so it is the clamped sum itself (R108, R109). -/
theorem biasOf_toNat {e : BitVec 12} (h : e.toInt ≤ 1024) (draw : Nat) :
    ((biasOf e draw).toNat : Int) = max 0 (e.toInt + 1023) := by
  have hfit : max Config.bexpClampMin (e.toInt + Config.bias) < 2048 := by
    simp only [Config.bexpClampMin, Config.bias]; omega
  rw [biasOf, if_pos hfit, BitVec.toNat_ofInt]
  simp only [Config.bexpClampMin, Config.bias] at hfit ⊢
  omega

/-- One more digit of `bin` is the one of the highest weight, in front (R113). -/
theorem bin_succ_toList (n w : Nat) : (bin n (w + 1)).toList = n.testBit w :: (bin n w).toList := by
  refine List.ext_getElem (by simp) fun j hj _ => ?_
  have hj : j < w + 1 := by simpa using hj
  cases j with
  | zero => simp [bin_getElem]
  | succ j =>
    rw [List.getElem_cons_succ, Vector.getElem_toList, Vector.getElem_toList, bin_getElem, bin_getElem]
    congr 1; omega

/-- Read as a base-2 number after the digits of `a`, `bin n w` appends the low `w` digits of `n` (R113). -/
theorem foldl_bin (n w a : Nat) :
    (bin n w).toList.foldl (fun a c => 2 * a + c.toNat) a = a * 2 ^ w + n % 2 ^ w := by
  induction w generalizing a with
  | zero =>
    have hnil : (bin n 0).toList = [] := rfl
    rw [hnil, List.foldl_nil, pow_zero, Nat.mod_one, mul_one, add_zero]
  | succ w ih =>
    rw [bin_succ_toList, List.foldl_cons, ih, Nat.toNat_testBit, Nat.mod_pow_succ, pow_succ]
    ring

/-! ### One step of the search -/

/-- Below the upper bound the first test moves `E` up by 1 (R106). -/
theorem exec_exps_up (hge : fracGeOne s.mag.val s.e.val.toInt = true) (hlt : s.e.val.toInt < 1024) :
    ∃ e' : BitVec 12, e'.toInt = s.e.val.toInt + 1 ∧ exec .exps s = .next { s with e := .now e' } := by
  rcases searchStep_spec s.mag.val s.e.val with ⟨-, -, he⟩ | ⟨hnot, -⟩ | ⟨hnot, -⟩
  · exact ⟨_, toInt_add_one (by omega), exec_exps_of_some he⟩
  · exact absurd ⟨hge, hlt⟩ hnot
  · exact absurd ⟨hge, hlt⟩ hnot

/-- Above the lower bound the second test moves `E` down by 1 (R106). -/
theorem exec_exps_down (hneg : fracNeg s.mag.val s.e.val.toInt = true) (hgt : -1023 < s.e.val.toInt) :
    ∃ e' : BitVec 12, e'.toInt = s.e.val.toInt - 1 ∧ exec .exps s = .next { s with e := .now e' } := by
  rcases searchStep_spec s.mag.val s.e.val with ⟨hge, -⟩ | ⟨-, -, -, he⟩ | ⟨-, hnot, -⟩
  · rw [not_fracNeg_of_fracGeOne hge] at hneg
    cases hneg
  · exact ⟨_, toInt_sub_one (by omega), exec_exps_of_some he⟩
  · exact absurd ⟨hneg, hgt⟩ hnot

/-- Where neither test moves `E` the search exits to `BIAS` (R106). -/
theorem exec_exps_leave (hup : ¬ (fracGeOne s.mag.val s.e.val.toInt = true ∧ s.e.val.toInt < 1024))
    (hdown : ¬ (fracNeg s.mag.val s.e.val.toInt = true ∧ -1023 < s.e.val.toInt)) :
    exec .exps s = .next { s with phase := .bias } := by
  rcases searchStep_spec s.mag.val s.e.val with ⟨hge, hlt, -⟩ | ⟨-, hneg, hgt, -⟩ | ⟨-, -, he⟩
  · exact absurd ⟨hge, hlt⟩ hup
  · exact absurd ⟨hneg, hgt⟩ hdown
  · exact exec_exps_of_none he

end Sys2Proof.Machine

namespace Sys2Proof.Safety

open Sys2Proof.Machine

/-- A magnitude compared with a power of two is its units compared with the power in units (R23, R58). -/
theorem two_zpow_le_magRat_iff (n : BitVec 2098) (e : ℤ) : (2 : ℚ) ^ e ≤ magRat n ↔ 2 ^ (e + 1074).toNat ≤ n.toNat := by
  have hscale : (2 : ℚ) ^ e = 2 ^ (e + 1074) * 2 ^ (-1074 : ℤ) := by
    rw [← zpow_add₀ two_ne_zero, Int.add_neg_cancel_right]
  rw [magRat, hscale, mul_le_mul_iff_left₀ (zpow_pos two_pos _), two_zpow_le_natCast_iff]

theorem one_le_frac_iff (q : ℚ) (e : ℤ) : 1 ≤ frac q e ↔ (2 : ℚ) ^ (e + 1) ≤ q := by
  rw [frac, le_sub_iff_add_le, le_div_iff₀ (zpow_pos two_pos e), zpow_add_one₀ two_ne_zero, mul_comm, one_add_one_eq_two]

theorem frac_neg_iff (q : ℚ) (e : ℤ) : frac q e < 0 ↔ q < (2 : ℚ) ^ e := by
  rw [frac, sub_neg, div_lt_one (zpow_pos two_pos e)]

/-- The fraction is in [0, 1) where neither test holds (R105). -/
theorem frac_mem_Ico_iff (q : ℚ) (e : ℤ) :
    (0 ≤ frac q e ∧ frac q e < 1) ↔ ((2 : ℚ) ^ e ≤ q ∧ q < (2 : ℚ) ^ (e + 1)) := by
  rw [← not_lt, frac_neg_iff, not_lt, ← not_le, one_le_frac_iff, not_le]

/-- The first test compares the exact fraction with 1, at every exponent (R105). -/
theorem fracGeOne_iff_frac (n : BitVec 2098) (e : ℤ) : fracGeOne (.fin n) e = true ↔ 1 ≤ frac (magRat n) e := by
  rw [fracGeOne_fin, one_le_frac_iff, two_zpow_le_magRat_iff, add_assoc]; rfl

/-- The second test compares the exact fraction with 0, at every exponent (R105). -/
theorem fracNeg_iff_frac (n : BitVec 2098) (e : ℤ) : fracNeg (.fin n) e = true ↔ frac (magRat n) e < 0 := by
  rw [fracNeg_fin, frac_neg_iff, ← not_le, ← not_le, two_zpow_le_magRat_iff]

/-- The invariant holds `E` between 0 and the exit exponent in the search, and at that exponent after it, so within the search
bounds (R107, R108, R112). -/
theorem MachineInv.e_range {s : State} (h : MachineInv s) (hp : s.phase = .exps ∨ s.phase = .bias) :
    -1023 ≤ s.e.val.toInt ∧ s.e.val.toInt ≤ 1024 := by
  have hi := h.phase
  have hexit := exitE_range s.opd.val
  rcases hp with hp | hp
  · simp only [PhaseInv, hp] at hi
    obtain ⟨-, -, hrange⟩ := hi
    omega
  · simp only [PhaseInv, hp] at hi
    obtain ⟨-, -, he⟩ := hi
    omega

end Sys2Proof.Safety
end

section
/-! PROOFS. The statements on the exponent normaliser (42_exponent). -/

namespace Sys2Proof.Proofs

open Sys2Proof.Machine Sys2Proof.Safety

/-- Settles O12: each test is a comparison of units, and a magnitude compares with a power of two as its units do. -/
theorem searchTestsCompareTheExactFraction : Obligations.SearchTestsCompareTheExactFraction := by
  unfold Obligations.SearchTestsCompareTheExactFraction
  refine ⟨fun n e => ⟨fracGeOne_iff_frac n e, fracNeg_iff_frac n e, one_le_frac_iff _ e, frac_neg_iff _ e,
    frac_mem_Ico_iff _ e, fun _ _ => ⟨fracGeOne_fin n e, fracNeg_fin n e⟩⟩, fun _ => ⟨rfl, rfl⟩⟩

/-- Settles O13: the exact fraction decides the two tests, and the bounds keep `E` from wrapping. -/
theorem expsMakesOneSearchStep : Obligations.ExpsMakesOneSearchStep := by
  unfold Obligations.ExpsMakesOneSearchStep
  intro s
  refine ⟨fun n hn => ?_, fun hinf => ?_⟩
  · have hge : fracGeOne s.mag.val s.e.val.toInt = true ↔ frac (magRat n) s.e.val.toInt ≥ 1 :=
      hn ▸ fracGeOne_iff_frac n _
    have hneg : fracNeg s.mag.val s.e.val.toInt = true ↔ frac (magRat n) s.e.val.toInt < 0 :=
      hn ▸ fracNeg_iff_frac n _
    rw [← hge, ← hneg]
    exact ⟨fun h => exec_exps_up h.1 h.2, fun h => exec_exps_down h.1 h.2, exec_exps_leave⟩
  · have hge : fracGeOne s.mag.val s.e.val.toInt = true := hinf ▸ rfl
    have hneg : fracNeg s.mag.val s.e.val.toInt = false := hinf ▸ rfl
    exact ⟨exec_exps_up hge, fun h => exec_exps_leave (fun hup => absurd hup.2 (not_lt.mpr h)) (by simp [hneg])⟩

/-- Settles O14: up to 1024 the clamped sum fits `BEXP`. -/
theorem biasAddsBiasAndClamps : Obligations.BiasAddsBiasAndClamps := by
  unfold Obligations.BiasAddsBiasAndClamps
  exact fun s => ⟨_, exec_bias s, fun h => biasOf_toNat h _⟩

/-- Settles O15: `bin` of a register at its own width spells its bits. -/
theorem expeRendersElevenCharacters : Obligations.ExpeRendersElevenCharacters := by
  unfold Obligations.ExpeRendersElevenCharacters
  exact fun s => ⟨_, exec_expe s, fun j => bin_toNat_getElem s.bexp.val j.val j.isLt⟩

/-- Settles O16, the value by induction on the number of digits. -/
theorem binSpellsTheLowDigits : Obligations.BinSpellsTheLowDigits := by
  unfold Obligations.BinSpellsTheLowDigits
  refine fun n w => ⟨fun j => ?_, by rw [foldl_bin, zero_mul, zero_add]⟩
  rw [Fin.getElem_fin, bin_getElem, Nat.testBit_eq_decide_div_mod_eq, decide_eq_true_eq]

/-- Settles O17: the search moves towards `b - 1023` and exits there. -/
theorem searchExitsAtTheOperandExponent : Obligations.SearchExitsAtTheOperandExponent := by
  unfold Obligations.SearchExitsAtTheOperandExponent
  intro w v draw h
  have he := finalE_toInt h
  exact ⟨he, biasOf_exit he draw, searchStep_exit h he⟩

/-- Settles O41: the bias and the fraction are the operand's own fields and `K` is at most 51, so no free value shows. -/
theorem countersStayInTheirRanges : Obligations.CountersStayInTheirRanges := by
  unfold Obligations.CountersStayInTheirRanges
  refine fun s h => ⟨h.e_range, fun hp d => ?_, fun hp d => ?_, fun hp => ?_⟩
  · have hi := h.phase
    simp only [PhaseInv, hp] at hi
    obtain ⟨-, -, he⟩ := hi
    rw [biasOf_exit he, biasOf_exit he]
  · have hi := h.phase
    simp only [PhaseInv, hp] at hi
    obtain ⟨⟨-, v, hv, -, hm⟩, hbexp, -⟩ := hi
    rw [hm, hbexp, reg_now_val, reg_now_val, selectRem_field hv, selectRem_field hv]
  · have hi := h.phase
    simp only [PhaseInv, hp] at hi
    obtain ⟨-, -, -, hk, -⟩ := hi
    exact ⟨hk, fun d => (nextK_of_le hk d).1⟩

end Sys2Proof.Proofs
end

section
/-! PROOFS. The initial fraction over the rationals and the doubling of the remainder (R27, R120, R122 to R124). -/

namespace Sys2Proof.Machine

/-! ### The initial fraction in units -/

/-- In the subnormal regime the units of `MAG` are those of `REM` (R121). -/
theorem selectRem_subnormal {n : BitVec 2098} {x : BitVec 52} (h : n.toNat = x.toNat) (draw : Nat) :
    selectRem (.fin n) 0 draw = x := by
  have hregime : ((0 : BitVec 11).toNat : Int) - Config.bias ≤ -1023 := by decide
  simp only [selectRem, if_pos hregime, h]
  rw [remOf_lt x.isLt, BitVec.ofNat_toNat, BitVec.setWidth_eq]

/-- In the normal regime the leading 1 and the scale `2^(BEXP - 1)` are removed, the division being exact (R121). -/
theorem selectRem_normal {n : BitVec 2098} {b : BitVec 11} {x : BitVec 52} (hb : b.toNat ≠ 0)
    (h : n.toNat = (x.toNat + 2 ^ 52) * 2 ^ (b.toNat - 1)) (draw : Nat) : selectRem (.fin n) b draw = x := by
  have hregime : ¬ (b.toNat : Int) - Config.bias ≤ -1023 := by simp only [Config.bias]; omega
  have hscale : ((b.toNat : Int) - Config.bias - Config.subnormalScaleExp).toNat = b.toNat - 1 := by
    simp only [Config.bias, Config.subnormalScaleExp]; omega
  simp only [selectRem, if_neg hregime, hscale, h]
  rw [Nat.mul_mod_left, Nat.mul_div_cancel _ (Nat.two_pow_pos _), if_pos ⟨rfl, Nat.le_add_left _ _⟩, Nat.add_sub_cancel,
    remOf_lt x.isLt, BitVec.ofNat_toNat, BitVec.setWidth_eq]

theorem emptyMstr_held (draw : Nat) (j : Fin 52) : (emptyMstr draw)[j].held = false := by simp [emptyMstr]

/-! ### The doubling -/

/-- A doubling that reaches 2^52 units emits `'1'` and subtracts them (R122). -/
theorem double_of_le {r : BitVec 52} (h : 2 ^ 52 ≤ 2 * r.toNat) :
    (double r).1 = true ∧ (double r).2.toNat + 2 ^ 52 = 2 * r.toNat := by
  have hlt := r.isLt
  simp only [double, if_pos h, BitVec.toNat_ofNat, true_and]
  omega

/-- A doubling that stays below 2^52 units emits `'0'` and is kept (R122). -/
theorem double_of_lt {r : BitVec 52} (h : 2 * r.toNat < 2 ^ 52) :
    (double r).1 = false ∧ (double r).2.toNat = 2 * r.toNat := by
  simp only [double, if_neg (not_le.mpr h), BitVec.toNat_ofNat, Nat.mod_eq_of_lt h, and_self]

/-- Each doubling shifts the remainder left by one place (R123). -/
theorem iterate_double_rem (r : BitVec 52) (k : Nat) : (fun x => (double x).2)^[k] r = r <<< k := by
  induction k with
  | zero => rw [Function.iterate_zero_apply, BitVec.shiftLeft_zero]
  | succ k ih => rw [Function.iterate_succ_apply', ih, double_shiftLeft_rem]

/-- The closed form of the doubling loop (R124). -/
theorem doublingLoop_eq_bin (r : BitVec 52) : doublingLoop 52 r = (bin r.toNat 52).toList := by
  rw [doublingLoop_eq_map_range, bin_toNat_toList]

end Sys2Proof.Machine

namespace Sys2Proof.Safety

open Sys2Proof.Machine

/-! ### Remainders as rationals -/

theorem remRat_nonneg (r : BitVec 52) : 0 ≤ remRat r := mul_nonneg (Nat.cast_nonneg _) (zpow_nonneg zero_le_two _)

/-- A number of units of 2^-52 compared with 1 (R27). -/
theorem one_le_units_iff (x : ℕ) : 1 ≤ (x : ℚ) * 2 ^ (-52 : ℤ) ↔ 2 ^ 52 ≤ x := by
  rw [zpow_neg, ← div_eq_mul_inv, one_le_div (zpow_pos two_pos _)]
  exact_mod_cast Iff.rfl

theorem remRat_lt_one (r : BitVec 52) : remRat r < 1 :=
  not_le.mp fun h => absurd r.isLt (not_lt.mpr ((one_le_units_iff _).mp h))

/-- The doubled remainder in units. -/
theorem two_mul_remRat (r : BitVec 52) : 2 * remRat r = (2 * r.toNat : ℕ) * 2 ^ (-52 : ℤ) := by
  rw [remRat, Nat.cast_mul, Nat.cast_ofNat, mul_assoc]

/-- At 1 or more the doubling emits `'1'` and subtracts 1 exactly (R122). -/
theorem double_of_one_le {r : BitVec 52} (h : 2 * remRat r ≥ 1) :
    (double r).1 = true ∧ remRat (double r).2 = 2 * remRat r - 1 := by
  rw [two_mul_remRat] at h ⊢
  obtain ⟨hc, hr⟩ := double_of_le ((one_le_units_iff _).mp h)
  refine ⟨hc, ?_⟩
  rw [← hr, remRat, Nat.cast_add, add_mul]
  norm_num

/-- Below 1 the doubling emits `'0'` and is exact (R122). -/
theorem double_of_lt_one {r : BitVec 52} (h : 2 * remRat r < 1) :
    (double r).1 = false ∧ remRat (double r).2 = 2 * remRat r := by
  rw [two_mul_remRat] at h ⊢
  obtain ⟨hc, hr⟩ := double_of_lt (not_le.mp fun hle => absurd h (not_lt.mpr ((one_le_units_iff _).mpr hle)))
  exact ⟨hc, by rw [← hr, remRat]⟩

/-! ### The two formulas for the initial fraction -/

/-- `REM` holds the subnormal fraction when its units are those of `MAG` (R120, R121). -/
theorem remRat_eq_subnormal_iff (x : BitVec 52) (n : BitVec 2098) :
    remRat x = magRat n / (2 : ℚ) ^ (-1022 : ℤ) ↔ n.toNat = x.toNat := by
  have hscale : (2 : ℚ) ^ (-1074 : ℤ) = 2 ^ (-52 : ℤ) * 2 ^ (-1022 : ℤ) := by rw [← zpow_add₀ two_ne_zero]; rfl
  rw [remRat, magRat, hscale, ← mul_assoc, mul_div_cancel_right₀ _ (zpow_ne_zero _ two_ne_zero),
    mul_left_inj' (zpow_ne_zero _ two_ne_zero), Nat.cast_inj, eq_comm]

/-- `REM` holds the normal fraction when `MAG` is its units and the leading 1, scaled by `2^(BEXP - 1)` (R120, R121). -/
theorem remRat_eq_normal_iff (x : BitVec 52) (n : BitVec 2098) {b : ℕ} (hb : b ≠ 0) :
    remRat x = magRat n / (2 : ℚ) ^ ((b : ℤ) - 1023) - 1 ↔ n.toNat = (x.toNat + 2 ^ 52) * 2 ^ (b - 1) := by
  have hone : remRat x + 1 = (x.toNat + 2 ^ 52 : ℕ) * 2 ^ (-52 : ℤ) := by
    rw [remRat, Nat.cast_add, add_mul]; norm_num
  have hscale : (2 : ℚ) ^ (-52 : ℤ) * 2 ^ ((b : ℤ) - 1023) = (2 ^ (b - 1) : ℕ) * 2 ^ (-1074 : ℤ) := by
    rw [Nat.cast_pow, Nat.cast_ofNat, ← zpow_natCast, ← zpow_add₀ two_ne_zero, ← zpow_add₀ two_ne_zero]
    congr 1; omega
  rw [eq_sub_iff_add_eq, hone, eq_div_iff (zpow_ne_zero _ two_ne_zero), mul_assoc, hscale, ← mul_assoc, magRat,
    mul_left_inj' (zpow_ne_zero _ two_ne_zero), ← Nat.cast_mul, Nat.cast_inj, eq_comm]

end Sys2Proof.Safety
end

section
/-! PROOFS. The statements on the mantissa extractor (43_mantissa). -/

namespace Sys2Proof.Proofs

open Sys2Proof.Machine Sys2Proof.Safety

/-- Settles O18: each formula over the rationals fixes the units of `MAG`, and those fix what `MSEL` selects. -/
theorem mselLoadsTheInitialFraction : Obligations.MselLoadsTheInitialFraction := by
  unfold Obligations.MselLoadsTheInitialFraction
  refine fun s => ⟨_, _, exec_msel s, emptyMstr_held _, fun hinf => ?_, fun n hn hb x hx => ?_, fun n hn hb x hx => ?_⟩
  · simp [hinf, selectRem, remRat]
  · rw [hn, hb]
    exact selectRem_subnormal ((remRat_eq_subnormal_iff x n).mp hx) _
  · have hpos : s.bexp.val.toNat ≠ 0 := fun h0 => hb (BitVec.eq_of_toNat_eq h0)
    rw [hn]
    exact selectRem_normal hpos ((remRat_eq_normal_iff x n hpos).mp hx) _

/-- Settles O19: the field by the class of the word, and every content of `REM` is in [0, 1). -/
theorem initialFractionIsTheMantissaField : Obligations.InitialFractionIsTheMantissaField := by
  unfold Obligations.InitialFractionIsTheMantissaField
  refine fun w v draw h => ⟨selectRem_field h draw, fun q hq => ?_, remRat_nonneg _, remRat_lt_one _⟩
  rw [hq]; rfl

/-- Settles O20: the character and the remainder by the doubling over the rationals, cell `K` by the one write to `MSTR`. -/
theorem mextEmitsOneCharacter : Obligations.MextEmitsOneCharacter := by
  unfold Obligations.MextEmitsOneCharacter
  refine fun s hk => ⟨_, _, _, _, exec_mext s, (nextK_of_le hk _).2, fun j => ?_, double_of_one_le, double_of_lt_one⟩
  simp only [Fin.getElem_fin, Vector.getElem_setIfInBounds, eq_comm (a := s.k.val.toNat)]

/-- Settles O22: 52 places are the whole register. -/
theorem fiftyTwoDoublingsLeaveNothing : Obligations.FiftyTwoDoublingsLeaveNothing := by
  unfold Obligations.FiftyTwoDoublingsLeaveNothing
  exact fun r => (iterate_double_rem r 52).trans (BitVec.shiftLeft_eq_zero le_rfl)

/-- Settles O23: the closed form, and digit `51 - k` read from it. -/
theorem doublingLoopSpellsTheRemainder : Obligations.DoublingLoopSpellsTheRemainder := by
  unfold Obligations.DoublingLoopSpellsTheRemainder
  refine fun r => ⟨doublingLoop_eq_bin r, fun k hk => ?_⟩
  rw [doublingLoop_eq_bin, List.getElem?_eq_getElem (by simpa using hk), Vector.getElem_toList, bin_getElem _ _ _ hk,
    Nat.testBit_eq_decide_div_mod_eq]

/-- Settles O21: a write to `MSTR` beyond its last cell leaves it as it is. -/
theorem mextBeyondTheLastCellWritesNoCell : Obligations.MextBeyondTheLastCellWritesNoCell := by
  unfold Obligations.MextBeyondTheLastCellWritesNoCell
  refine fun s hk => ⟨_, exec_mext s, ?_, rfl, if_neg (by omega)⟩
  exact Vector.ext fun j hj => by rw [Vector.getElem_setIfInBounds_ne _ (by omega)]

end Sys2Proof.Proofs
end

section
/-! PROOFS. The statement on result assembly (44_assembly). -/

namespace Sys2Proof.Proofs

open Sys2Proof.Machine

/-- Settles O24: each written cell reads as its character of the result string, and a write of 64 characters from cell 0
reaches no cell outside 0 to 63. -/
theorem asmWritesTheWholeString : Obligations.AsmWritesTheWholeString := by
  unfold Obligations.AsmWritesTheWholeString
  refine fun s => ⟨_, exec_asm s, ?sign, fun j => ?exponent, fun k => ?mantissa, fun a ha => ?outside, fun hwf => ?form⟩
  case sign => rw [read_asm s _ (by omega), resultString_sign]
  case exponent => rw [read_asm s _ (by omega), resultString_exponent s j.isLt, Fin.getElem_fin]
  case mantissa => rw [read_asm s _ (by omega), resultString_mantissa s k.isLt, Fin.getElem_fin]
  case outside => exact Memory.read_writeString_outside _ _ (by rw [resultString_length]; omega)
  case form => exact Memory.wf_writeString _ hwf (by simp)

end Sys2Proof.Proofs
end

section
/-! PROOFS. The one way into `FAULT` (R140, R142). -/

namespace Sys2Proof.Machine

open Sys2Proof.Safety

variable {s : State}

/-- In R78's graph the only edge into `FAULT` from another phase is that of `SIGN` on a NaN. -/
theorem sign_and_isNaN_of_nextPhase_fault (hn : nextPhase s = .fault) (hp : s.phase ≠ .fault) :
    s.port.rst = false ∧ s.phase = .sign ∧ IsNaN s.opd.val := by
  cases hr : s.port.rst with
  | true => simp [nextPhase, hr] at hn
  | false =>
    refine ⟨rfl, ?_⟩
    cases hs : s.phase with
    | fault => exact absurd hs hp
    | sign => simpa [nextPhase, hr, hs] using hn
    | idle | done | exps | bias | expe | msel | mext | asm => simp [nextPhase, hr, hs, ite_eq_iff] at hn

/-- `SIGN` on a NaN word raises the fault, whatever command is presented (R140, R143, R163). -/
theorem step_of_sign_nan (hr : s.port.rst = false) (hp : s.phase = .sign) (hn : IsNaN s.opd.val) :
    step s = .next (raiseFault .nanOperand s.consume) := by
  rw [step_of_phase hr hp rfl]
  exact exec_sign_of_nan (s := s.consume) ((unpack_eq_nan_iff _).mpr hn)

end Sys2Proof.Machine
end

section
/-! PROOFS. The statements on fault entry and on leaving the fault (60_exceptions). -/

namespace Sys2Proof.Proofs

open Sys2Proof.Machine

/-- Settles O34: by the phase graph the step is that of `SIGN` on a NaN, and what that step writes is `raiseFault`. -/
theorem faultIsEnteredOnlyByANaN : Obligations.FaultIsEnteredOnlyByANaN := by
  unfold Obligations.FaultIsEnteredOnlyByANaN
  intro s t h ht hp
  obtain ⟨hr, hs, hn⟩ := sign_and_isNaN_of_nextPhase_fault ((phaseMovesAlongTheGraph s t h).symm.trans ht) hp
  rw [step_of_sign_nan hr hs hn] at h
  cases h
  exact ⟨hs, hn, rfl, rfl⟩

/-- Settles O35: `FAULT` is a hold phase, so a step from it is a reset, an acceptance, or moves only the inputs on. -/
theorem faultIsLeftOnlyByEncodeOrReset : Obligations.FaultIsLeftOnlyByEncodeOrReset := by
  unfold Obligations.FaultIsLeftOnlyByEncodeOrReset
  intro s t hp h
  rcases step_cases h with ⟨hr, rfl⟩ | ⟨hr, -, hs, rfl⟩ | ⟨hr, -, hs, rfl⟩ | ⟨-, hb, -⟩
  · exact .inl ⟨hr, rfl, rfl⟩
  · exact .inr (.inl ⟨hr, hs, rfl, rfl⟩)
  · exact .inr (.inr ⟨hr, hs, hp, rfl⟩)
  · simp [State.busy, hp] at hb

end Sys2Proof.Proofs
end

section
/-! PROOFS. A busy step under any ports, and the statements on reset steps and on the ports while busy (70_reset_and_hazards). -/

namespace Sys2Proof.Machine

/-- While `BUSY = 1` a step without reset is the micro-operation on the state that the ports have left: of what they presented
in that step nothing remains (R163). -/
theorem step_cons_of_busy {s : State} {p : PortIn} (r : List PortIn) (hb : s.busy = true) (hp : p.rst = false) :
    step { s with inputs := p :: r } = exec s.phase.instr { s with inputs := r } :=
  step_of_busy (s := { s with inputs := p :: r }) hp hb

end Sys2Proof.Machine

namespace Sys2Proof.Proofs

open Sys2Proof.Machine

/-- Settles O33: under either ports the step is the same micro-operation on the same state, and none writes `OPD`. -/
theorem busyStepIgnoresThePorts : Obligations.BusyStepIgnoresThePorts := by
  unfold Obligations.BusyStepIgnoresThePorts
  intro s p q r hb hp hq
  have hstep := step_cons_of_busy r hb hp
  refine ⟨hstep.trans (step_cons_of_busy r hb hq).symm, fun t ht => ?_⟩
  exact opd_of_microOp (s := { s with inputs := r }) (hstep.symm.trans ht)

/-- Settles O3: the step is `afterReset`, which takes only the inputs to come and `draw` from the state before. -/
theorem resetStepWins : Obligations.ResetStepWins := by
  unfold Obligations.ResetStepWins
  exact fun s hr => ⟨afterReset s, step_of_rst hr, rfl, rfl, nothingHeld_afterReset s, rfl⟩

end Sys2Proof.Proofs
end

section
/-! PROOFS. The machine invariant at reset (10_state, 40_command). -/

namespace Sys2Proof.Proofs

open Sys2Proof.Machine Sys2Proof.Safety

/-- Settles O2: the reset state differs from the state after a reset step only in `draw`, of which the invariant says nothing. -/
theorem resetMeetsInvariant : Obligations.ResetMeetsInvariant := by
  unfold Obligations.ResetMeetsInvariant
  obtain ⟨hcause, hwindow, hform, hphase⟩ := machineInv_afterReset State.reset
  exact ⟨hcause, hwindow, hform, hphase⟩

end Sys2Proof.Proofs
end
